-- ==== Sys2Proof/Word.lean ====
section
/-! DEFINITION. The word types of the core: every value is an unsigned bit vector of a fixed width (R5, R9). -/

namespace Sys2Proof

/-- A memory byte or a data register (R13, R24). -/
abbrev Byte := BitVec 8

/-- The 16-bit opcode, `I`, `pc` and a stack entry (R5). -/
abbrev Word := BitVec 16

/-- A 4-bit opcode field: a register index X or Y, or a count N (R8, R51). -/
abbrev Nibble := BitVec 4

/-- The 12-bit address operand NNN (R8, R51). -/
abbrev Addr := BitVec 12

end Sys2Proof
end

