-- ==== Sys2Proof/Config.lean ====
section
/-! DEFINITION. The parameters the spec leaves open (R7), the host's inputs of one iteration (R28), and the free value
that supplies an input no state lists. -/

namespace Sys2Proof

/-- FETCH_ORDER (R7, R38): which byte of the opcode stands at the lower address. -/
inductive FetchOrder where
  /-- The byte at pc is the high byte (the default). -/
  | bigEndian
  /-- The byte at pc is the low byte. -/
  | littleEndian
deriving DecidableEq, Repr

/-- VF_WRITE_ORDER (R7, R86). -/
inductive VfWriteOrder where
  /-- VF first, then V[X] (the default). -/
  | flagFirst
  /-- V[X] first, then VF. -/
  | flagLast
deriving DecidableEq, Repr

/-- SHIFT_SOURCE (R7, R90). -/
inductive ShiftSource where
  /-- V[X] is shifted (the default). -/
  | vx
  /-- V[Y] is shifted into V[X]. -/
  | vy
deriving DecidableEq, Repr

/-- DRAW_EDGE (R7, R97). -/
inductive DrawEdge where
  /-- A pixel past the grid's edge is not drawn and cannot collide (the default). -/
  | clip
  /-- A pixel past the grid's edge is drawn modulo 64 and 32. -/
  | wrap
deriving DecidableEq, Repr

/-- KEY_RANGE_POLICY (R7, R100). -/
inductive KeyRangePolicy where
  /-- A key value above 15 raises KeyOutOfRange (the default). -/
  | fault
  /-- A key value above 15 reads as not pressed, with no query. -/
  | notPressed
  /-- A key value above 15 is reduced to its low nibble. -/
  | maskLowNibble
deriving DecidableEq, Repr

/-- FONT_DIGIT_POLICY (R7, R111). -/
inductive FontDigitPolicy where
  /-- The register's value as it stands (the default). -/
  | unmasked
  /-- The register's low nibble. -/
  | maskLowNibble
deriving DecidableEq, Repr

/-- I_AFTER_BLOCK_MOVE (R7, R107): what I holds after FX55 or FX65 has succeeded. -/
inductive IAfterBlockMove where
  /-- I keeps its value (the default). -/
  | unchanged
  /-- I advances by X + 1. -/
  | plusXPlus1
  /-- I advances by X. -/
  | plusX
deriving DecidableEq, Repr

/-- CALL_PUSH_VALUE (R7, R72): what CALL pushes and what RET adds. -/
inductive CallPushValue where
  /-- CALL pushes its own address and RET adds 2 (the default). -/
  | pcOfCall
  /-- CALL pushes its address plus 2 and RET adds 0. -/
  | pcPlus2
deriving DecidableEq, Repr

/-- The parameters of R7 but FONT_GLYPH_BYTES (which is the memory's content at creation). -/
structure Config where
  fetchOrder : FetchOrder
  vfWriteOrder : VfWriteOrder
  shiftSource : ShiftSource
  drawEdge : DrawEdge
  keyRangePolicy : KeyRangePolicy
  fontDigitPolicy : FontDigitPolicy
  iAfterBlockMove : IAfterBlockMove
  callPushValue : CallPushValue
deriving DecidableEq, Repr

/-- What the host supplies to one iteration (R28, R127, R134). An iteration makes at most one display call and asks at
most one key query, so one answer of each kind is enough. -/
structure HostInput where
  /-- The answer to `poll_quit_requested` (R132). -/
  quit : Bool
  /-- Whole seconds since the previous sample of the clock: `now` never decreases (R121, R134). -/
  elapsed : Nat
  /-- The fresh random byte, used by RND alone (R96). -/
  rand : Byte
  /-- The answer to `is_key_down(k)` is bit k (R130). -/
  keysDown : BitVec 16
  /-- The answer to `first_pressed_key` (R131); nothing links it to `keysDown` (R134). -/
  firstKey : Option Nibble
  /-- The display's answer to `clear` or `present`: true is ok, false a transport error (R128, R129). -/
  displayOk : Bool
deriving DecidableEq, Repr, Inhabited

/-- FREE VALUE (log entry 3): the host's input of iteration n where the state lists none. It has no body, so no proof
can use any property of it: a statement holds for every host (R134). -/
opaque Config.freeInput : Nat → HostInput

end Sys2Proof
end

