-- ==== Sys2Proof/Syntax.lean ====
section
/-! DEFINITION. The 35 instructions, one constructor per row of spec/opcode_table.json, in the table's order (R56). -/

namespace Sys2Proof

/-- The instructions with their operand fields (R51, R56). `shr` and `shl` keep the Y field, which the default
SHIFT_SOURCE ignores (R90). -/
inductive Instr where
  /-- `SYS NNN` (0NNN), R112. -/
  | sys (nnn : Addr)
  /-- `CLS` (00E0), R98. -/
  | cls
  /-- `RET` (00EE), R73. -/
  | ret
  /-- `JP NNN` (1NNN), R70. -/
  | jp (nnn : Addr)
  /-- `CALL NNN` (2NNN), R72. -/
  | call (nnn : Addr)
  /-- `SE Vx, KK` (3XKK), R75. -/
  | seImm (x : Nibble) (kk : Byte)
  /-- `SNE Vx, KK` (4XKK), R76. -/
  | sneImm (x : Nibble) (kk : Byte)
  /-- `SE Vx, Vy` (5XY0), R77. -/
  | seReg (x y : Nibble)
  /-- `LD Vx, KK` (6XKK), R80. -/
  | ldImm (x : Nibble) (kk : Byte)
  /-- `ADD Vx, KK` (7XKK), R81. -/
  | addImm (x : Nibble) (kk : Byte)
  /-- `LD Vx, Vy` (8XY0), R82. -/
  | ldReg (x y : Nibble)
  /-- `OR Vx, Vy` (8XY1), R83. -/
  | orReg (x y : Nibble)
  /-- `AND Vx, Vy` (8XY2), R84. -/
  | andReg (x y : Nibble)
  /-- `XOR Vx, Vy` (8XY3), R85. -/
  | xorReg (x y : Nibble)
  /-- `ADD Vx, Vy` (8XY4), R87. -/
  | addReg (x y : Nibble)
  /-- `SUB Vx, Vy` (8XY5), R88. -/
  | sub (x y : Nibble)
  /-- `SHR Vx` (8XY6), R90. -/
  | shr (x y : Nibble)
  /-- `SUBN Vx, Vy` (8XY7), R89. -/
  | subn (x y : Nibble)
  /-- `SHL Vx` (8XYE), R91. -/
  | shl (x y : Nibble)
  /-- `SNE Vx, Vy` (9XY0), R78. -/
  | sneReg (x y : Nibble)
  /-- `LD I, NNN` (ANNN), R94. -/
  | ldI (nnn : Addr)
  /-- `JP V0, NNN` (BNNN), R71. -/
  | jpV0 (nnn : Addr)
  /-- `RND Vx, KK` (CXKK), R96. -/
  | rnd (x : Nibble) (kk : Byte)
  /-- `DRW Vx, Vy, N` (DXYN), R99. -/
  | drw (x y n : Nibble)
  /-- `SKP Vx` (EX9E), R101. -/
  | skp (x : Nibble)
  /-- `SKNP Vx` (EXA1), R102. -/
  | sknp (x : Nibble)
  /-- `LD Vx, DT` (FX07), R104. -/
  | ldVxDt (x : Nibble)
  /-- `LD Vx, K` (FX0A), R103. -/
  | ldVxK (x : Nibble)
  /-- `LD DT, Vx` (FX15), R105. -/
  | ldDtVx (x : Nibble)
  /-- `LD ST, Vx` (FX18), R106. -/
  | ldStVx (x : Nibble)
  /-- `ADD I, Vx` (FX1E), R95. -/
  | addI (x : Nibble)
  /-- `LD F, Vx` (FX29), R111. -/
  | ldF (x : Nibble)
  /-- `LD B, Vx` (FX33), R110. -/
  | ldB (x : Nibble)
  /-- `LD [I], Vx` (FX55), R108. -/
  | storeRegs (x : Nibble)
  /-- `LD Vx, [I]` (FX65), R109. -/
  | loadRegs (x : Nibble)
deriving DecidableEq, Repr

end Sys2Proof
end

