-- ==== Sys2Proof/WellFormed.lean ====
section
/-! DEFINITION. Which instruction terms have a word of their own (R54, R57). Every operand's range is in its type. -/

namespace Sys2Proof

/-- The words 0x00E0 and 0x00EE decode as `CLS` and `RET`, never as `SYS` (R54, R57), so `SYS 0x0E0` and `SYS 0x0EE`
are no instructions of the machine; every other term is one. -/
def Instr.wellFormed : Instr → Bool
  | .sys nnn => nnn != 0x0E0#12 && nnn != 0x0EE#12
  | _ => true

end Sys2Proof
end

