-- ==== Sys2Proof/Decode.lean ====
section
/-! DEFINITION. From bytes to an instruction or a named refusal (R38, R50 to R59), and back. -/

namespace Sys2Proof

/-- Why bytes are no instruction. -/
inductive DecodeError where
  /-- The word matches no pattern of R56 (R55, R59). -/
  | unknownOpcode (op : Word)
  /-- Fewer than the two bytes every instruction has (R50). -/
  | truncated
deriving DecidableEq, Repr

/-! ### Operand fields (R51) -/

/-- `op[11:0]`. -/
def fieldNNN (op : Word) : Addr := op.extractLsb' 0 12

/-- `op[11:8]`. -/
def fieldX (op : Word) : Nibble := op.extractLsb' 8 4

/-- `op[7:4]`. -/
def fieldY (op : Word) : Nibble := op.extractLsb' 4 4

/-- `op[7:0]`. -/
def fieldKK (op : Word) : Byte := op.extractLsb' 0 8

/-- `op[3:0]`. -/
def fieldN (op : Word) : Nibble := op.extractLsb' 0 4

/-! ### The opcode map (R56) -/

/-- One pattern of R56: the word `w` has it iff `w &&& mask = bits`; `build` binds the free fields. -/
structure Pattern where
  mask : Word
  bits : Word
  build : Word → Instr

/-- Shape A·B·C·D: all four nibbles fixed (R52). -/
def patternsExact : List Pattern :=
  [⟨0xFFFF#16, 0x00E0#16, fun _ => .cls⟩,
   ⟨0xFFFF#16, 0x00EE#16, fun _ => .ret⟩]

/-- Shape A·X·B·C: three nibbles fixed (R52). -/
def patternsAXBC : List Pattern :=
  [⟨0xF0FF#16, 0xE09E#16, fun op => .skp (fieldX op)⟩,
   ⟨0xF0FF#16, 0xE0A1#16, fun op => .sknp (fieldX op)⟩,
   ⟨0xF0FF#16, 0xF007#16, fun op => .ldVxDt (fieldX op)⟩,
   ⟨0xF0FF#16, 0xF00A#16, fun op => .ldVxK (fieldX op)⟩,
   ⟨0xF0FF#16, 0xF015#16, fun op => .ldDtVx (fieldX op)⟩,
   ⟨0xF0FF#16, 0xF018#16, fun op => .ldStVx (fieldX op)⟩,
   ⟨0xF0FF#16, 0xF01E#16, fun op => .addI (fieldX op)⟩,
   ⟨0xF0FF#16, 0xF029#16, fun op => .ldF (fieldX op)⟩,
   ⟨0xF0FF#16, 0xF033#16, fun op => .ldB (fieldX op)⟩,
   ⟨0xF0FF#16, 0xF055#16, fun op => .storeRegs (fieldX op)⟩,
   ⟨0xF0FF#16, 0xF065#16, fun op => .loadRegs (fieldX op)⟩]

/-- Shape A·X·Y·B: two nibbles fixed (R52). -/
def patternsAXYB : List Pattern :=
  [⟨0xF00F#16, 0x5000#16, fun op => .seReg (fieldX op) (fieldY op)⟩,
   ⟨0xF00F#16, 0x8000#16, fun op => .ldReg (fieldX op) (fieldY op)⟩,
   ⟨0xF00F#16, 0x8001#16, fun op => .orReg (fieldX op) (fieldY op)⟩,
   ⟨0xF00F#16, 0x8002#16, fun op => .andReg (fieldX op) (fieldY op)⟩,
   ⟨0xF00F#16, 0x8003#16, fun op => .xorReg (fieldX op) (fieldY op)⟩,
   ⟨0xF00F#16, 0x8004#16, fun op => .addReg (fieldX op) (fieldY op)⟩,
   ⟨0xF00F#16, 0x8005#16, fun op => .sub (fieldX op) (fieldY op)⟩,
   ⟨0xF00F#16, 0x8006#16, fun op => .shr (fieldX op) (fieldY op)⟩,
   ⟨0xF00F#16, 0x8007#16, fun op => .subn (fieldX op) (fieldY op)⟩,
   ⟨0xF00F#16, 0x800E#16, fun op => .shl (fieldX op) (fieldY op)⟩,
   ⟨0xF00F#16, 0x9000#16, fun op => .sneReg (fieldX op) (fieldY op)⟩]

/-- Shapes A·X·KK, A·X·Y·N and A·NNN: the leading nibble fixed (R52). -/
def patternsOneNibble : List Pattern :=
  [⟨0xF000#16, 0x3000#16, fun op => .seImm (fieldX op) (fieldKK op)⟩,
   ⟨0xF000#16, 0x4000#16, fun op => .sneImm (fieldX op) (fieldKK op)⟩,
   ⟨0xF000#16, 0x6000#16, fun op => .ldImm (fieldX op) (fieldKK op)⟩,
   ⟨0xF000#16, 0x7000#16, fun op => .addImm (fieldX op) (fieldKK op)⟩,
   ⟨0xF000#16, 0xC000#16, fun op => .rnd (fieldX op) (fieldKK op)⟩,
   ⟨0xF000#16, 0xD000#16, fun op => .drw (fieldX op) (fieldY op) (fieldN op)⟩,
   ⟨0xF000#16, 0x0000#16, fun op => .sys (fieldNNN op)⟩,
   ⟨0xF000#16, 0x1000#16, fun op => .jp (fieldNNN op)⟩,
   ⟨0xF000#16, 0x2000#16, fun op => .call (fieldNNN op)⟩,
   ⟨0xF000#16, 0xA000#16, fun op => .ldI (fieldNNN op)⟩,
   ⟨0xF000#16, 0xB000#16, fun op => .jpV0 (fieldNNN op)⟩]

/-- All 35 patterns in the priority order of R53: most fixed nibbles first. -/
def patterns : List Pattern :=
  patternsExact ++ patternsAXBC ++ patternsAXYB ++ patternsOneNibble

/-- `w` has the pattern's fixed nibbles (R56). -/
def Pattern.hits (p : Pattern) (op : Word) : Bool := op &&& p.mask == p.bits

/-- The first pattern of the list that the word hits builds the instruction (R53, R55). -/
def decodeWith (op : Word) : List Pattern → Except DecodeError Instr
  | [] => .error (.unknownOpcode op)
  | p :: ps => if p.hits op then .ok (p.build op) else decodeWith op ps

/-- `Decode(op)`: total on every 16-bit word (R55). -/
def decode (op : Word) : Except DecodeError Instr := decodeWith op patterns

/-! ### Bytes (R38) -/

/-- The opcode of the byte at the lower address and the byte after it, under FETCH_ORDER (R38). -/
def wordOfBytes : FetchOrder → Byte → Byte → Word
  | .bigEndian, lower, upper => lower ++ upper
  | .littleEndian, lower, upper => upper ++ lower

/-- The two bytes of an opcode as they stand in memory, the lower address first (R38). -/
def bytesOfWord (order : FetchOrder) (op : Word) : Byte × Byte :=
  match order with
  | .bigEndian => (op.extractLsb' 8 8, op.extractLsb' 0 8)
  | .littleEndian => (op.extractLsb' 0 8, op.extractLsb' 8 8)

/-- Decode the first instruction of a list of bytes and give the rest of the list (R50). -/
def decodeBytes (order : FetchOrder) : List Byte → Except DecodeError (Instr × List Byte)
  | lower :: upper :: rest =>
    match decode (wordOfBytes order lower upper) with
    | .ok i => .ok (i, rest)
    | .error e => .error e
  | _ => .error .truncated

/-! ### The encoder (R56) -/

/-- The word of a one-nibble shape with a 12-bit operand. -/
def encNNN (n1 : Nibble) (nnn : Addr) : Word := n1 ++ nnn

/-- The word of shape A·X·KK. -/
def encXKK (n1 x : Nibble) (kk : Byte) : Word := n1 ++ x ++ kk

/-- The word of shapes A·X·Y·B and A·X·Y·N. -/
def encXYN (n1 x y n : Nibble) : Word := n1 ++ x ++ y ++ n

/-- The one word of an instruction (R56, R63), for SHR and SHL the one with its Y field. -/
def encode : Instr → Word
  | .sys nnn => encNNN 0x0#4 nnn
  | .cls => 0x00E0#16
  | .ret => 0x00EE#16
  | .jp nnn => encNNN 0x1#4 nnn
  | .call nnn => encNNN 0x2#4 nnn
  | .seImm x kk => encXKK 0x3#4 x kk
  | .sneImm x kk => encXKK 0x4#4 x kk
  | .seReg x y => encXYN 0x5#4 x y 0x0#4
  | .ldImm x kk => encXKK 0x6#4 x kk
  | .addImm x kk => encXKK 0x7#4 x kk
  | .ldReg x y => encXYN 0x8#4 x y 0x0#4
  | .orReg x y => encXYN 0x8#4 x y 0x1#4
  | .andReg x y => encXYN 0x8#4 x y 0x2#4
  | .xorReg x y => encXYN 0x8#4 x y 0x3#4
  | .addReg x y => encXYN 0x8#4 x y 0x4#4
  | .sub x y => encXYN 0x8#4 x y 0x5#4
  | .shr x y => encXYN 0x8#4 x y 0x6#4
  | .subn x y => encXYN 0x8#4 x y 0x7#4
  | .shl x y => encXYN 0x8#4 x y 0xE#4
  | .sneReg x y => encXYN 0x9#4 x y 0x0#4
  | .ldI nnn => encNNN 0xA#4 nnn
  | .jpV0 nnn => encNNN 0xB#4 nnn
  | .rnd x kk => encXKK 0xC#4 x kk
  | .drw x y n => encXYN 0xD#4 x y n
  | .skp x => encXKK 0xE#4 x 0x9E#8
  | .sknp x => encXKK 0xE#4 x 0xA1#8
  | .ldVxDt x => encXKK 0xF#4 x 0x07#8
  | .ldVxK x => encXKK 0xF#4 x 0x0A#8
  | .ldDtVx x => encXKK 0xF#4 x 0x15#8
  | .ldStVx x => encXKK 0xF#4 x 0x18#8
  | .addI x => encXKK 0xF#4 x 0x1E#8
  | .ldF x => encXKK 0xF#4 x 0x29#8
  | .ldB x => encXKK 0xF#4 x 0x33#8
  | .storeRegs x => encXKK 0xF#4 x 0x55#8
  | .loadRegs x => encXKK 0xF#4 x 0x65#8

/-- The instruction this decoder reads from an instruction whose bits are `w`, numbered as spec/opcode_table.json
numbers them; bits at and above `nbits` are 0. The bytes are laid out in the default order (R38). -/
def decodeTableWord (nbits w : Nat) : Option Instr :=
  let bytes := bytesOfWord .bigEndian (BitVec.ofNat 16 (w % 2 ^ nbits))
  match decodeBytes .bigEndian [bytes.1, bytes.2] with
  | .ok (i, _) => some i
  | .error _ => none

end Sys2Proof
end

