-- ==== Sys2Proof/Machine/Params.lean ====
section
/-! DEFINITION. The parameters fixed by the source (R5, R6), the font bytes (R30) and the defaults of the open
parameters (R7). -/

namespace Sys2Proof.Machine

/-- MEM_SIZE: 0xFFF = 4095 bytes, addresses 0x000 to 0xFFE (R5, R24). -/
def memSize : Nat := 0xFFF

/-- STACK_DEPTH (R5, R19). -/
def stackDepth : Nat := 16

/-- PROG_START, the address the loader copies the image to (R5, R137). -/
def progStart : Nat := 0x200

/-- PC_RESET, the entry point (R5, R31). -/
def pcReset : Word := 0x200#16

/-- FLAG_REG, the index of VF (R5, R14). -/
def flagReg : Nibble := 15#4

/-- FONT_START, the address of glyph 0 (R6). -/
def fontStart : Nat := 0x000

/-- The bytes of one glyph (R5, R30). -/
def glyphBytes : Nat := 5

/-- DISPLAY_W (R5, R26). -/
def displayW : Nat := 64

/-- DISPLAY_H (R5, R26). -/
def displayH : Nat := 32

/-- The glyphs 0 to 7 of R30. -/
def fontLow : List Byte :=
  [0xF0, 0x90, 0x90, 0x90, 0xF0] ++ [0x20, 0x60, 0x20, 0x20, 0x70] ++
  [0xF0, 0x10, 0xF0, 0x80, 0xF0] ++ [0xF0, 0x10, 0xF0, 0x10, 0xF0] ++
  [0x90, 0x90, 0xF0, 0x10, 0x10] ++ [0xF0, 0x80, 0xF0, 0x10, 0xF0] ++
  [0xF0, 0x80, 0xF0, 0x90, 0xF0] ++ [0xF0, 0x10, 0x20, 0x40, 0x40]

/-- The glyphs 8 to F of R30. -/
def fontHigh : List Byte :=
  [0xF0, 0x90, 0xF0, 0x90, 0xF0] ++ [0xF0, 0x90, 0xF0, 0x10, 0xF0] ++
  [0xF0, 0x90, 0xF0, 0x90, 0x90] ++ [0xE0, 0x90, 0xE0, 0x90, 0xE0] ++
  [0xF0, 0x80, 0x80, 0x80, 0xF0] ++ [0xE0, 0x90, 0x90, 0x90, 0xE0] ++
  [0xF0, 0x80, 0xF0, 0x80, 0xF0] ++ [0xF0, 0x80, 0xF0, 0x80, 0x80]

/-- FONT_GLYPH_BYTES at its default: glyph d is the five bytes at `5 * d` (R7, R30; log entry 7). -/
def fontTable : List Byte := fontLow ++ fontHigh

/-- What an address that memory does not list reads as: its content at creation, the font at 0x000 to 0x04F and
0x00 everywhere else (R31, R136; log entry 8). The font starts at FONT_START = 0 (R6). -/
def creationByte (a : Nat) : Byte := fontTable.getD a 0

/-- The defaults of R7 (log entry 6). -/
def defaultConfig : Config where
  fetchOrder := .bigEndian
  vfWriteOrder := .flagFirst
  shiftSource := .vx
  drawEdge := .clip
  keyRangePolicy := .fault
  fontDigitPolicy := .unmasked
  iAfterBlockMove := .unchanged
  callPushValue := .pcOfCall

end Sys2Proof.Machine
end

