-- ==== Sys2Proof/Machine/State.lean ====
section
/-! DEFINITION. The state of the core as plain data (R13 to R33), the errors (R114), the output events (R127) and the
state at creation (R31). -/

namespace Sys2Proof.Machine

/-- A display call that can answer with a transport error (R114, R128, R129). -/
inductive DisplayCall where
  | clear
  | present
deriving DecidableEq, Repr

/-- The errors of R114 with their recorded info. Raising one is a NEXT state whose status is `faulted` (R116; log
entry 1). -/
inductive Error where
  /-- Raised by CALL when the stack holds 16 entries; records the value that was to be pushed (R22). -/
  | stackOverflow (value : Word)
  /-- Raised by RET when the stack is empty (R23). -/
  | stackUnderflow
  /-- Raised by a fetch (records pc, R41) and by a data access at or past MEM_SIZE (records the address, R36, R37). -/
  | outOfMemory (address : Nat)
  /-- Raised by decode; records the word (R55). -/
  | unknownOpcode (op : Word)
  /-- Raised by CLS and DRW when the display answers with an error; records which call failed (R98, R99). -/
  | ioError (failed : DisplayCall)
  /-- Raised by SKP and SKNP for a register value above 15 under the default policy; records the value (R100). -/
  | keyOutOfRange (value : Byte)
deriving DecidableEq, Repr

/-- The session status (R27). -/
inductive Status where
  | running
  | quit
  | faulted (e : Error)
deriving DecidableEq, Repr

/-- The 64 x 32 pixel grid, `fb[col][row]`, true is lit (R26). -/
abbrev Grid := Vector (Vector Bool 32) 64

/-- The output events to the collaborators (R127). -/
inductive Event where
  /-- `input.poll_quit_requested()` (R132). -/
  | pollQuitRequested
  /-- `audio.beep()` (R133). -/
  | beep
  /-- `display.clear()` (R128). -/
  | clear
  /-- `display.present(fb)` (R129). -/
  | present (fb : Grid)
  /-- `input.is_key_down(k)` (R130). -/
  | isKeyDown (k : Nibble)
  /-- `input.first_pressed_key()` (R131). -/
  | firstPressedKey
deriving DecidableEq, Repr

/-- Memory as (address, byte) pairs, addresses strictly rising, no pair equal to what an unlisted address reads as
(`creationByte`). -/
abbrev Memory := List Host.Cell

/-- The state. The first block is the spec's (R33 closes the list); the last five fields are the model's own. -/
structure State where
  /-- V[0] to V[15] (R13). -/
  regs : Vector Byte 16
  /-- The address register I (R16). -/
  I : Word
  /-- The program counter (R17). -/
  pc : Word
  /-- The live entries S[0] to S[SP-1] of the call stack, S[0] first; SP is the length (R19; log entry 9). -/
  stack : List Word
  /-- mem[0 .. MEM_SIZE-1] (R24). -/
  mem : Memory
  /-- DT, the delay timer's stored value (R25). -/
  dt : Byte
  /-- dt_t, the second of DT's last update (R25). -/
  dtT : Nat
  /-- ST, the sound timer's stored duration (R25). -/
  st : Byte
  /-- st_t, the second of ST's last write (R25). -/
  stT : Nat
  /-- st_armed: an ST write whose beep has not been emitted (R25). -/
  stArmed : Bool
  /-- The pixel grid (R26). -/
  fb : Grid
  /-- The session status (R27). -/
  status : Status
  /-- The model's own: the parameters of R7, which no step writes (log entry 6). -/
  cfg : Config
  /-- The model's own: the clock's latest sample, `now` of R121 (log entry 4). -/
  now : Nat
  /-- The model's own: the host's inputs of the coming iterations, the next first (R28; log entry 3). -/
  inputs : List HostInput
  /-- The model's own: how many iterations have ended, the argument of the free value (log entry 3). -/
  iter : Nat
  /-- The model's own: the events emitted so far, oldest first (R10, R127; log entry 5). -/
  events : List Event
deriving DecidableEq, Repr

/-- Why a step could stop outside the state. There is no constructor: every error of the spec is recorded in
`State.status` (R116), so no step of this machine ends in a fault (log entry 1). -/
inductive Fault where
deriving DecidableEq, Repr

/-- Why a step could have no meaning. -/
inductive Refusal where
  /-- Raised by an arm of `exec` whose instruction has no meaning yet (safe); no arm of this model does. -/
  | notModelled (mnemonic : String)
deriving DecidableEq, Repr

/-- The state at session creation, no image loaded (R31, R136). -/
def State.reset : State where
  regs := Vector.replicate 16 0#8
  I := 0#16
  pc := pcReset
  stack := []
  mem := []
  dt := 0#8
  dtT := 0
  st := 0#8
  stT := 0
  stArmed := false
  fb := Vector.replicate 64 (Vector.replicate 32 false)
  status := .running
  cfg := defaultConfig
  now := 0
  inputs := []
  iter := 0
  events := []

end Sys2Proof.Machine
end

