-- ==== Sys2Proof/Machine/Ops.lean ====
section
/-! DEFINITION. The named operations over registers, stack, memory, status and the host (R10): every meaning is
written with them. -/

namespace Sys2Proof.Machine

/-- What a meaning and a step answer. -/
abbrev Answer := Host.Outcome State Fault Refusal

/-! ### Registers and pc (R10, R13, R16, R17) -/

/-- `V[x]`. -/
def State.getV (s : State) (x : Nibble) : Byte := s.regs[x.toNat]

/-- `V[x] <- v`. -/
def State.setV (s : State) (x : Nibble) (v : Byte) : State :=
  { s with regs := s.regs.set x.toNat v }

/-- `I <- v`. -/
def State.setI (s : State) (v : Word) : State := { s with I := v }

/-- `pc <- target`. -/
def State.setPc (s : State) (target : Word) : State := { s with pc := target }

/-- `ADV(n)`: `pc <- (pc + n) mod 2^16` (R10). -/
def State.adv (s : State) (n : Nat) : State := s.setPc (s.pc + BitVec.ofNat 16 n)

/-- Skip category: `ADV(4)` if the condition holds, else `ADV(2)` (R18). -/
def State.skipIf (s : State) (c : Bool) : State := if c then s.adv 4 else s.adv 2

/-! ### Errors (R114, R116) -/

/-- The code of an error (R114). -/
def Error.code : Error → Nat
  | .stackOverflow _ => 1
  | .stackUnderflow => 2
  | .outOfMemory _ => 3
  | .unknownOpcode _ => 4
  | .ioError _ => 5
  | .keyOutOfRange _ => 6

/-- The state after `raise E(info)`: the status records the error; everything written before the raise stays and pc is
not advanced (R116). This is the one way an error is taken; there is no return from it (R117). -/
def State.raised (s : State) (e : Error) : State := { s with status := .faulted e }

/-- `raise E(info)` in state `s`. -/
def raise (e : Error) (s : State) : Answer := .next (s.raised e)

/-- The result of a sequence of accesses: all done, or an error with the writes before it performed (R43). -/
inductive Run where
  | ok (s : State)
  | raised (e : Error) (s : State)
deriving DecidableEq, Repr

/-- Go on with `f` after a run that raised nothing; otherwise take the error (R116). -/
def Run.andThen (r : Run) (f : State → State) : Answer :=
  match r with
  | .ok s => .next (f s)
  | .raised e s => raise e s

/-! ### The call stack (R19 to R23) -/

/-- SP, the number of live entries (R19). -/
def State.sp (s : State) : Nat := s.stack.length

/-- `Push(v)` (R22). -/
def push (v : Word) (s : State) : Except Error State :=
  if stackDepth ≤ s.sp then .error (.stackOverflow v)
  else .ok { s with stack := s.stack ++ [v] }

/-- `Pop()` (R23). -/
def pop (s : State) : Except Error (Word × State) :=
  match s.stack.getLast? with
  | none => .error .stackUnderflow
  | some v => .ok (v, { s with stack := s.stack.dropLast })

/-! ### Memory (R34 to R43) -/

/-- The byte at an address: its listed value, or its content at creation. -/
def Memory.read : Memory → Nat → Byte
  | [], a => creationByte a
  | (b, v) :: m, a => if b = a then v else Memory.read m a

/-- The memory with one more pair in front, unless the pair says what an unlisted address reads as. -/
def Memory.cons (a : Nat) (v : Byte) (m : Memory) : Memory :=
  if v = creationByte a then m else (a, v) :: m

/-- Write one byte, keeping the canonical form. -/
def Memory.write : Memory → Nat → Byte → Memory
  | [], a, v => Memory.cons a v []
  | (b, w) :: m, a, v =>
    if a < b then Memory.cons a v ((b, w) :: m)
    else if a = b then Memory.cons a v m
    else (b, w) :: Memory.write m a v

/-- The canonical form from address `lo` on. -/
def Memory.wfFrom : Nat → Memory → Bool
  | _, [] => true
  | lo, (a, v) :: m =>
    decide (lo ≤ a) && decide (a < memSize) && (v != creationByte a) && Memory.wfFrom (a + 1) m

/-- The canonical form: addresses strictly rising and below MEM_SIZE, no pair equal to what an unlisted address reads
as. -/
def Memory.wf (m : Memory) : Bool := Memory.wfFrom 0 m

/-- `MemRead(a, 1)` (R36). -/
def memRead (a : Nat) (s : State) : Except Error Byte :=
  if memSize ≤ a then .error (.outOfMemory a) else .ok (Memory.read s.mem a)

/-- `MemWrite(a, 1, v)` (R37). -/
def memWrite (a : Nat) (v : Byte) (s : State) : Except Error State :=
  if memSize ≤ a then .error (.outOfMemory a) else .ok { s with mem := Memory.write s.mem a v }

/-- Read `n` bytes at ascending addresses from `a`; the first one out of bounds raises (R43). -/
def readBytes (s : State) : Nat → Nat → Except Error (List Byte)
  | _, 0 => .ok []
  | a, n + 1 =>
    match memRead a s with
    | .error e => .error e
    | .ok b =>
      match readBytes s (a + 1) n with
      | .error e => .error e
      | .ok bs => .ok (b :: bs)

/-- Write bytes at ascending addresses from `a`; the first one out of bounds raises, and those before it stay
written (R43). -/
def storeBytes : Nat → List Byte → State → Run
  | _, [], s => .ok s
  | a, b :: bs, s =>
    match memWrite a b s with
    | .error e => .raised e s
    | .ok s' => storeBytes (a + 1) bs s'

/-- `V[k] <- MemRead(a, 1)`, then the next register from the next address, `n` times; the first address out of bounds
raises, and the registers before it keep their new values (R43, R109). -/
def loadBytes : Nat → Nat → Nat → State → Run
  | _, _, 0, s => .ok s
  | a, k, n + 1, s =>
    match memRead a s with
    | .error e => .raised e s
    | .ok b => loadBytes (a + 1) (k + 1) n (s.setV (BitVec.ofNat 4 k) b)

/-! ### The host (R28, R127) -/

/-- The host's input of this iteration: the first the state lists, else the free value (R28, R134; log entry 3). -/
def State.input (s : State) : HostInput := s.inputs.headD (Config.freeInput s.iter)

/-- `emit ev` (R10). -/
def State.emit (s : State) (ev : Event) : State := { s with events := s.events ++ [ev] }

/-- An iteration's last act in the model: its input is used up (R28; log entry 3). -/
def State.endIteration (s : State) : State := { s with inputs := s.inputs.tail, iter := s.iter + 1 }

/-- The same, on an answer. -/
def endAnswer : Answer → Answer
  | .next s => .next s.endIteration
  | .fault r => .fault r
  | .refused r => .refused r

/-- Store the bytes of an opcode at an address where both exist (R38), as a loader would (R137). -/
def State.placeWord (s : State) (a : Nat) (op : Word) : State :=
  let bytes := bytesOfWord s.cfg.fetchOrder op
  if a + 1 < memSize then
    { s with mem := Memory.write (Memory.write s.mem a bytes.1) (a + 1) bytes.2 }
  else s

end Sys2Proof.Machine
end

