-- ==== Sys2Proof/Machine/Operands.lean ====
section
/-! DEFINITION. The operand forms of the instructions (R51, R107, R111) beyond a register and an immediate. -/

namespace Sys2Proof.Machine

/-- `zext_16(NNN)` (R9, R51). -/
def zext16 (nnn : Addr) : Word := nnn.setWidth 16

/-- `zext_16` of a byte (R9). -/
def byteToWord (b : Byte) : Word := b.setWidth 16

/-- The effective address of the k-th byte past I, not reduced (R35, R107). -/
def State.addr (s : State) (k : Nat) : Nat := s.I.toNat + k

/-- `zext_16(NNN) + V[0]`, modulo 2^16 and not reduced to 12 bits (R71). -/
def State.indirectTarget (s : State) (nnn : Addr) : Word := zext16 nnn + byteToWord (s.getV 0#4)

/-- The value a shift shifts (R90). -/
def State.shiftOperand (s : State) (x y : Nibble) : Byte :=
  match s.cfg.shiftSource with
  | .vx => s.getV x
  | .vy => s.getV y

/-- The digit LD F multiplies (R111). -/
def State.fontDigit (s : State) (x : Nibble) : Nat :=
  match s.cfg.fontDigitPolicy with
  | .unmasked => (s.getV x).toNat
  | .maskLowNibble => (s.getV x).toNat % 16

/-- The address of a glyph, `FONT_START + 5 * digit` (R6, R111). -/
def glyphAddr (digit : Nat) : Word := BitVec.ofNat 16 (fontStart + glyphBytes * digit)

/-- The values of V[0] to V[x] in ascending order (R108). -/
def State.regsUpTo (s : State) (x : Nibble) : List Byte :=
  (List.range (x.toNat + 1)).map fun k => s.getV (BitVec.ofNat 4 k)

/-- The decimal digits of a byte: hundreds, tens, ones (R110). -/
def bcdDigits (v : Byte) : List Byte :=
  [BitVec.ofNat 8 (v.toNat / 100), BitVec.ofNat 8 (v.toNat / 10 % 10), BitVec.ofNat 8 (v.toNat % 10)]

/-- The value CALL pushes (R72). -/
def State.callValue (s : State) : Word :=
  match s.cfg.callPushValue with
  | .pcOfCall => s.pc
  | .pcPlus2 => s.pc + 2#16

/-- Where RET goes from the value it popped (R73). -/
def returnTarget : CallPushValue → Word → Word
  | .pcOfCall, a => a + 2#16
  | .pcPlus2, a => a

/-- I after a block move of V[0] to V[x] that raised nothing (R107; log entry 10). -/
def State.afterBlockMove (s : State) (x : Nibble) : State :=
  match s.cfg.iAfterBlockMove with
  | .unchanged => s
  | .plusXPlus1 => s.setI (s.I + BitVec.ofNat 16 (x.toNat + 1))
  | .plusX => s.setI (s.I + BitVec.ofNat 16 x.toNat)

end Sys2Proof.Machine
end

