-- ==== Sys2Proof/Machine/LoadLogic.lean ====
section
/-! DEFINITION. Register load, add-immediate and bitwise logic: no flag (R79 to R85). -/

namespace Sys2Proof.Machine

/-- Write the result to V[x], then ADV(2) (R79). -/
def State.writeResult (s : State) (x : Nibble) (res : Byte) : State := (s.setV x res).adv 2

/-- `LD Vx, KK` (R80). -/
def execLdImm (x : Nibble) (kk : Byte) (s : State) : Answer := .next (s.writeResult x kk)

/-- `ADD Vx, KK`: wraps, no carry (R81). -/
def execAddImm (x : Nibble) (kk : Byte) (s : State) : Answer := .next (s.writeResult x (s.getV x + kk))

/-- `LD Vx, Vy` (R82). -/
def execLdReg (x y : Nibble) (s : State) : Answer := .next (s.writeResult x (s.getV y))

/-- `OR Vx, Vy` (R83). -/
def execOrReg (x y : Nibble) (s : State) : Answer := .next (s.writeResult x (s.getV x ||| s.getV y))

/-- `AND Vx, Vy` (R84). -/
def execAndReg (x y : Nibble) (s : State) : Answer := .next (s.writeResult x (s.getV x &&& s.getV y))

/-- `XOR Vx, Vy` (R85). -/
def execXorReg (x y : Nibble) (s : State) : Answer := .next (s.writeResult x (s.getV x ^^^ s.getV y))

end Sys2Proof.Machine
end

