-- ==== Sys2Proof/Machine/Address.lean ====
section
/-! DEFINITION. Addressing and randomization (R93 to R96). -/

namespace Sys2Proof.Machine

/-- `LD I, NNN` (R94). -/
def execLdI (nnn : Addr) (s : State) : Answer := .next ((s.setI (zext16 nnn)).adv 2)

/-- `ADD I, Vx`: modulo 2^16, no flag (R95). -/
def execAddI (x : Nibble) (s : State) : Answer :=
  .next ((s.setI (s.I + byteToWord (s.getV x))).adv 2)

/-- `RND Vx, KK`: the iteration's random byte, masked (R96). -/
def execRnd (x : Nibble) (kk : Byte) (s : State) : Answer :=
  .next (s.writeResult x (s.input.rand &&& kk))

end Sys2Proof.Machine
end

