-- ==== Sys2Proof/Machine/Flags.lean ====
section
/-! DEFINITION. The values VF takes (R15, R86 to R91, R99) and the order of the two writes (R86). -/

namespace Sys2Proof.Machine

/-- A flag as the byte VF holds (R86). -/
def flagByte (c : Bool) : Byte := if c then 1#8 else 0#8

/-- Carry of an addition: the unsigned sum exceeds 255 (R87). -/
def carryOut (a b : Byte) : Bool := decide (255 < a.toNat + b.toNat)

/-- Not borrow of `a - b`: `a > b`, strictly (R88, R89). -/
def notBorrow (a b : Byte) : Bool := decide (b.toNat < a.toNat)

/-- The bit a right shift shifts out (R90). -/
def lowBit (a : Byte) : Bool := a.getLsbD 0

/-- The bit a left shift shifts out (R91). -/
def highBit (a : Byte) : Bool := a.getLsbD 7

/-- `WriteFlagged(res, flag)`: the result to V[x] and the flag to VF in the order VF_WRITE_ORDER names, then ADV(2)
(R86). -/
def State.writeFlagged (s : State) (x : Nibble) (res : Byte) (flag : Bool) : State :=
  match s.cfg.vfWriteOrder with
  | .flagFirst => ((s.setV flagReg (flagByte flag)).setV x res).adv 2
  | .flagLast => ((s.setV x res).setV flagReg (flagByte flag)).adv 2

end Sys2Proof.Machine
end

