-- ==== Sys2Proof/Machine/Alu.lean ====
section
/-! DEFINITION. Register arithmetic with flag side effects (R86 to R92). -/

namespace Sys2Proof.Machine

/-- `ADD Vx, Vy` (R87). -/
def execAddReg (x y : Nibble) (s : State) : Answer :=
  let a := s.getV x
  let b := s.getV y
  .next (s.writeFlagged x (a + b) (carryOut a b))

/-- `SUB Vx, Vy` (R88). -/
def execSub (x y : Nibble) (s : State) : Answer :=
  let a := s.getV x
  let b := s.getV y
  .next (s.writeFlagged x (a - b) (notBorrow a b))

/-- `SUBN Vx, Vy` (R89). -/
def execSubn (x y : Nibble) (s : State) : Answer :=
  let a := s.getV x
  let b := s.getV y
  .next (s.writeFlagged x (b - a) (notBorrow b a))

/-- `SHR Vx` (R90). -/
def execShr (x y : Nibble) (s : State) : Answer :=
  let a := s.shiftOperand x y
  .next (s.writeFlagged x (a >>> 1) (lowBit a))

/-- `SHL Vx` (R91). -/
def execShl (x y : Nibble) (s : State) : Answer :=
  let a := s.shiftOperand x y
  .next (s.writeFlagged x (a <<< 1) (highBit a))

end Sys2Proof.Machine
end

