-- ==== Sys2Proof/Machine/Block.lean ====
section
/-! DEFINITION. Memory block moves, BCD and the font address (R107 to R111). -/

namespace Sys2Proof.Machine

/-- `LD [I], Vx`: store V[0] to V[x], inclusive (R108). -/
def execStoreRegs (x : Nibble) (s : State) : Answer :=
  (storeBytes (s.addr 0) (s.regsUpTo x) s).andThen fun s' => (s'.afterBlockMove x).adv 2

/-- `LD Vx, [I]`: load V[0] to V[x], inclusive (R109). -/
def execLoadRegs (x : Nibble) (s : State) : Answer :=
  (loadBytes (s.addr 0) 0 (x.toNat + 1) s).andThen fun s' => (s'.afterBlockMove x).adv 2

/-- `LD B, Vx`: store the three decimal digits (R110). -/
def execLdB (x : Nibble) (s : State) : Answer :=
  (storeBytes (s.addr 0) (bcdDigits (s.getV x)) s).andThen fun s' => s'.adv 2

/-- `LD F, Vx`: point I at a glyph; no memory is accessed (R111). -/
def execLdF (x : Nibble) (s : State) : Answer :=
  .next ((s.setI (glyphAddr (s.fontDigit x))).adv 2)

end Sys2Proof.Machine
end

