-- ==== Sys2Proof/Machine/Control.lean ====
section
/-! DEFINITION. Control transfer (R69 to R73). -/

namespace Sys2Proof.Machine

/-- `JP NNN` (R70). -/
def execJp (nnn : Addr) (s : State) : Answer := .next (s.setPc (zext16 nnn))

/-- `JP V0, NNN` (R71). -/
def execJpV0 (nnn : Addr) (s : State) : Answer := .next (s.setPc (s.indirectTarget nnn))

/-- `CALL NNN`: push, then jump (R72). -/
def execCall (nnn : Addr) (s : State) : Answer :=
  match push s.callValue s with
  | .error e => raise e s
  | .ok s' => .next (s'.setPc (zext16 nnn))

/-- `RET`: pop, then resume after the call (R73). -/
def execRet (s : State) : Answer :=
  match pop s with
  | .error e => raise e s
  | .ok (a, s') => .next (s'.setPc (returnTarget s.cfg.callPushValue a))

end Sys2Proof.Machine
end

