-- ==== Sys2Proof/Machine/Display.lean ====
section
/-! DEFINITION. The pixel grid and the display instructions (R26, R97 to R99). -/

namespace Sys2Proof.Machine

/-! ### The grid (R26) -/

/-- `fb[col][row]`; outside the grid there is no pixel, read here as unlit. -/
def Grid.lit (g : Grid) (col row : Nat) : Bool :=
  if h : col < 64 ∧ row < 32 then (g[col]'h.1)[row]'h.2 else false

/-- `fb[col][row] <- fb[col][row] ^ 1`. -/
def Grid.flip (g : Grid) (col row : Nat) : Grid :=
  if h : col < 64 ∧ row < 32 then
    g.set col ((g[col]'h.1).set row (!(g[col]'h.1)[row]'h.2) h.2) h.1
  else g

/-- The grid with every pixel 0 (R98). -/
def Grid.blank : Grid := Vector.replicate 64 (Vector.replicate 32 false)

/-! ### Plotting a sprite (R97, R99) -/

/-- Where pixel (c, r) of a sprite placed at (x0, y0) lands: nowhere if it is clipped (R97). -/
def landing (edge : DrawEdge) (x0 y0 c r : Nat) : Option (Nat × Nat) :=
  match edge with
  | .clip => if x0 + c < displayW ∧ y0 + r < displayH then some (x0 + c, y0 + r) else none
  | .wrap => some ((x0 + c) % displayW, (y0 + r) % displayH)

/-- Pixel c of a sprite row: bit 7 is the leftmost (R97). -/
def spriteBit (row : Byte) (c : Nat) : Bool := row.getLsbD (7 - c)

/-- A set sprite bit flips the pixel it lands on, and collides if that pixel was lit (R99). The pair is the grid and
whether any pixel has collided. -/
def plotPixel (edge : DrawEdge) (x0 y0 r : Nat) (row : Byte) (p : Grid × Bool) (c : Nat) : Grid × Bool :=
  if spriteBit row c then
    match landing edge x0 y0 c r with
    | some (px, py) => (Grid.flip p.1 px py, p.2 || Grid.lit p.1 px py)
    | none => p
  else p

/-- The eight pixels of sprite row r, left to right (R99). -/
def plotRow (edge : DrawEdge) (x0 y0 r : Nat) (row : Byte) (p : Grid × Bool) : Grid × Bool :=
  (List.range 8).foldl (plotPixel edge x0 y0 r row) p

/-- The rows of a sprite from row r on, top first (R99). -/
def plotRows (edge : DrawEdge) (x0 y0 : Nat) : Nat → List Byte → Grid × Bool → Grid × Bool
  | _, [], p => p
  | r, row :: rows, p => plotRows edge x0 y0 (r + 1) rows (plotRow edge x0 y0 r row p)

/-- Draw a whole sprite: the new grid and whether a lit pixel was turned off (R99). -/
def plotSprite (edge : DrawEdge) (x0 y0 : Nat) (rows : List Byte) (g : Grid) : Grid × Bool :=
  plotRows edge x0 y0 0 rows (g, false)

/-! ### The display calls (R128, R129) -/

/-- Emit a display call and take its answer: ok goes on with ADV(2), an error raises IoError (R98, R99). -/
def State.displayCall (s : State) (call : DisplayCall) (ev : Event) : State :=
  let s' := s.emit ev
  if s.input.displayOk then s'.adv 2 else s'.raised (.ioError call)

/-- `CLS`: clear the grid, then call the display (R98). -/
def execCls (s : State) : Answer :=
  .next (({ s with fb := Grid.blank } : State).displayCall .clear .clear)

/-- `DRW Vx, Vy, N`: sample the position, reset VF, read every sprite byte, plot, set VF on a collision, then present
(R99). -/
def execDrw (x y n : Nibble) (s : State) : Answer :=
  let x0 := (s.getV x).toNat % displayW
  let y0 := (s.getV y).toNat % displayH
  let s1 := s.setV flagReg 0#8
  match readBytes s1 (s1.addr 0) n.toNat with
  | .error e => raise e s1
  | .ok rows =>
    let drawn := plotSprite s.cfg.drawEdge x0 y0 rows s1.fb
    let s2 := ({ s1 with fb := drawn.1 } : State).setV flagReg (flagByte drawn.2)
    .next (s2.displayCall .present (.present drawn.1))

end Sys2Proof.Machine
end

