-- ==== Sys2Proof/Machine/Input.lean ====
section
/-! DEFINITION. The key instructions (R100 to R103). -/

namespace Sys2Proof.Machine

/-- Ask the input collaborator whether key k is held (R130). -/
def queryKey (k : Nibble) (s : State) : Bool × State :=
  (s.input.keysDown.getLsbD k.toNat, s.emit (.isKeyDown k))

/-- `KeyDown(v)` (R100). -/
def keyDown (v : Byte) (s : State) : Except Error (Bool × State) :=
  if 15 < v.toNat then
    match s.cfg.keyRangePolicy with
    | .fault => .error (.keyOutOfRange v)
    | .notPressed => .ok (false, s)
    | .maskLowNibble => .ok (queryKey (v.setWidth 4) s)
  else .ok (queryKey (v.setWidth 4) s)

/-- `SKP Vx` (R101). -/
def execSkp (x : Nibble) (s : State) : Answer :=
  match keyDown (s.getV x) s with
  | .error e => raise e s
  | .ok (held, s') => .next (s'.skipIf held)

/-- `SKNP Vx` (R102). -/
def execSknp (x : Nibble) (s : State) : Answer :=
  match keyDown (s.getV x) s with
  | .error e => raise e s
  | .ok (held, s') => .next (s'.skipIf (!held))

/-- `LD Vx, K`: no key leaves pc, so the next iteration runs it again (R103). -/
def execLdVxK (x : Nibble) (s : State) : Answer :=
  let s' := s.emit .firstPressedKey
  .next
    (match s.input.firstKey with
      | none => s'
      | some k => s'.writeResult x (k.setWidth 8))

end Sys2Proof.Machine
end

