-- ==== Sys2Proof/Machine/Legacy.lean ====
section
/-! DEFINITION. The legacy machine-code call (R112). -/

namespace Sys2Proof.Machine

/-- `SYS NNN`: `ADV(2)`; the operand is ignored (R112). -/
def execSys (_nnn : Addr) (s : State) : Answer := .next (s.adv 2)

end Sys2Proof.Machine
end

