-- ==== Sys2Proof/Machine/Skip.lean ====
section
/-! DEFINITION. Conditional skips (R74 to R78). -/

namespace Sys2Proof.Machine

/-- `SE Vx, KK` (R75). -/
def execSeImm (x : Nibble) (kk : Byte) (s : State) : Answer := .next (s.skipIf (s.getV x == kk))

/-- `SNE Vx, KK` (R76). -/
def execSneImm (x : Nibble) (kk : Byte) (s : State) : Answer := .next (s.skipIf (s.getV x != kk))

/-- `SE Vx, Vy` (R77). -/
def execSeReg (x y : Nibble) (s : State) : Answer := .next (s.skipIf (s.getV x == s.getV y))

/-- `SNE Vx, Vy` (R78). -/
def execSneReg (x y : Nibble) (s : State) : Answer := .next (s.skipIf (s.getV x != s.getV y))

end Sys2Proof.Machine
end

