-- ==== Sys2Proof/Machine/Timers.lean ====
section
/-! DEFINITION. The timer counter block (R121 to R126) and its three instructions (R104 to R106). -/

namespace Sys2Proof.Machine

/-- Whole seconds since `t`, never negative: `now -sat t` (R121). -/
def State.elapsedSince (s : State) (t : Nat) : Nat := s.now - t

/-- The delay timer's decayed value, `DT -sat (now -sat dt_t)` (R122). -/
def State.decayedDelay (s : State) : Byte := BitVec.ofNat 8 (s.dt.toNat - s.elapsedSince s.dtT)

/-- `DelayRead()`: the decayed value, committed with its timestamp (R122). -/
def delayRead (s : State) : Byte × State :=
  (s.decayedDelay, { s with dt := s.decayedDelay, dtT := s.now })

/-- `DelayWrite(v)` (R123). -/
def delayWrite (v : Byte) (s : State) : State := { s with dt := v, dtT := s.now }

/-- `SoundWrite(v)` (R124). -/
def soundWrite (v : Byte) (s : State) : State := { s with st := v, stT := s.now, stArmed := true }

/-- The beep is due: armed, and the stored duration has elapsed (R125). -/
def State.beepDue (s : State) : Bool := s.stArmed && decide (s.st.toNat ≤ s.elapsedSince s.stT)

/-- `BeepCheck()` (R125). -/
def beepCheck (s : State) : State :=
  if s.beepDue then { s.emit .beep with stArmed := false } else s

/-- `LD Vx, DT` (R104). -/
def execLdVxDt (x : Nibble) (s : State) : Answer :=
  let r := delayRead s
  .next (r.2.writeResult x r.1)

/-- `LD DT, Vx` (R105). -/
def execLdDtVx (x : Nibble) (s : State) : Answer := .next ((delayWrite (s.getV x) s).adv 2)

/-- `LD ST, Vx` (R106). -/
def execLdStVx (x : Nibble) (s : State) : Answer := .next ((soundWrite (s.getV x) s).adv 2)

end Sys2Proof.Machine
end

