-- ==== Sys2Proof/Machine/Iteration.lean ====
section
/-! DEFINITION. One driver-loop iteration (R64 to R68), the loader (R137) and the placing of one instruction. -/

namespace Sys2Proof.Machine

/-- `now <- in.now`: the clock advances by what the host says has elapsed (R121; log entry 4). -/
def sampleClock (s : State) : State := { s with now := s.now + s.input.elapsed }

/-- S_POLL: ask for the quit flag (R66, R132). -/
def pollQuit (s : State) : State := s.emit .pollQuitRequested

/-- `Fetch()` (R41). -/
def fetch (s : State) : Except Error Word :=
  if memSize ≤ s.pc.toNat + 1 then .error (.outOfMemory s.pc.toNat)
  else .ok (wordOfBytes s.cfg.fetchOrder (Memory.read s.mem s.pc.toNat) (Memory.read s.mem (s.pc.toNat + 1)))

/-- The error of the core a decode error is (R55). A fetch never gives fewer than two bytes. -/
def decodeErrorOf (op : Word) : DecodeError → Error
  | .unknownOpcode op' => .unknownOpcode op'
  | .truncated => .unknownOpcode op

/-- S_FETCH and S_DECODE: the instruction at pc, or the error (R64). -/
def fetchDecode (s : State) : Except Error Instr :=
  match fetch s with
  | .error e => .error e
  | .ok op =>
    match decode op with
    | .error e => .error (decodeErrorOf op e)
    | .ok i => .ok i

/-- The state at S_FETCH of an iteration that does not quit: clock sampled, quit polled, beep checked (R64). -/
def beforeFetch (s : State) : State := beepCheck (pollQuit (sampleClock s))

/-- S_FETCH, S_DECODE and S_EXEC (R64). -/
def fetchExecute (s : State) : Answer :=
  match fetchDecode s with
  | .error e => raise e s
  | .ok i => exec i s

/-- The state after an iteration that quits: clock sampled, quit polled, nothing else (R66). -/
def State.quitted (s : State) : State := { pollQuit (sampleClock s) with status := .quit }

/-- `Iteration(in)` (R64). A terminal status stays as it is (R65; log entry 2). -/
def iteration (s : State) : Answer :=
  match s.status with
  | .running =>
    if s.input.quit then .next s.quitted.endIteration
    else endAnswer (fetchExecute (beforeFetch s))
  | .quit => .next s
  | .faulted _ => .next s

/-- `s` with the host's next answer to the quit poll being no: without it the iteration fetches nothing (R66). -/
def State.withoutQuit (s : State) : State :=
  { s with inputs := { s.input with quit := false } :: s.inputs.tail }

/-- `s` running, about to fetch `op` at pc in an iteration that does not quit (log entry 12). -/
def State.readyToFetch (s : State) (op : Word) : State :=
  { (s.placeWord s.pc.toNat op).withoutQuit with status := .running }

/-! ### The loader (R137) -/

/-- Write a list of bytes from address `a` on. -/
def Memory.writeAll : Memory → Nat → List Byte → Memory
  | m, _, [] => m
  | m, a, b :: bs => Memory.writeAll (Memory.write m a b) (a + 1) bs

/-- The launch state: the 80 font bytes, an image copied verbatim to PROG_START, the parameters and the second of
creation; none where the font is not 80 bytes long or the image is too large, since then no session starts (R30, R31,
R136, R137). -/
def State.launch (cfg : Config) (font image : List Byte) (t0 : Nat) : Option State :=
  if font.length = fontTable.length ∧ progStart + image.length ≤ memSize then
    some { State.reset with
      mem := Memory.writeAll (Memory.writeAll [] fontStart font) progStart image
      cfg := cfg
      now := t0
      dtT := t0
      stT := t0 }
  else none

end Sys2Proof.Machine
end

