-- ==== Sys2Proof/Machine/Step.lean ====
section
/-! DEFINITION. The step of the machine: one iteration (R64). -/

namespace Sys2Proof.Machine

/-- One step is one driver-loop iteration (R12, R64). -/
def step (s : State) : Host.Outcome State Fault Refusal := iteration s

/-- `s` with the instruction whose bits are `w` (bits at and above `nbits` zero) where the next step fetches, and
ready to be fetched (log entry 12). -/
def State.withFetchWord (s : State) (nbits w : Nat) : State :=
  s.readyToFetch (BitVec.ofNat 16 (w % 2 ^ nbits))

end Sys2Proof.Machine
end

