-- ==== Sys2Proof/Safety.lean ====
section
/-! DEFINITION. What claims speak of: the invariant of the machine, what stays the same between two states, and the end
of a run. -/

namespace Sys2Proof.Machine

/-! ### The invariant -/

/-- What every state of a run satisfies: memory is canonical, the stack holds at most 16 entries (R20), pc is at most
0x10FE (R18), every stack entry is an address a CALL can push, and no timer was written in the future (R121). -/
structure State.Inv (s : State) : Prop where
  memory : Memory.wf s.mem = true
  stack : s.sp ≤ stackDepth
  pc : s.pc.toNat ≤ 0x10FE
  entries : ∀ v ∈ s.stack, v.toNat ≤ 0xFFF
  delay : s.dtT ≤ s.now
  sound : s.stT ≤ s.now

/-! ### What stays the same -/

/-- Every data register but those of the list. -/
def SameRegsBut (d : List Nibble) (s t : State) : Prop := ∀ r, r ∉ d → t.getV r = s.getV r

/-- Every byte of memory. -/
def SameMemory (s t : State) : Prop := ∀ a, Memory.read t.mem a = Memory.read s.mem a

/-- Every byte of memory outside the `n` bytes from `lo`. -/
def SameMemoryBut (lo n : Nat) (s t : State) : Prop :=
  ∀ a, (a < lo ∨ lo + n ≤ a) → Memory.read t.mem a = Memory.read s.mem a

/-- The delay timer and its timestamp. -/
def SameDelay (s t : State) : Prop := t.dt = s.dt ∧ t.dtT = s.dtT

/-- The sound timer, its timestamp and its armed bit. -/
def SameSound (s t : State) : Prop := t.st = s.st ∧ t.stT = s.stT ∧ t.stArmed = s.stArmed

/-- The model's own fields that no instruction writes: the parameters, the clock and the host's inputs. -/
def SameHost (s t : State) : Prop :=
  t.cfg = s.cfg ∧ t.now = s.now ∧ t.inputs = s.inputs ∧ t.iter = s.iter

/-- The status is kept, or records an error (R116). -/
def SameStatusOrError (s t : State) : Prop := t.status = s.status ∨ ∃ e, t.status = .faulted e

/-! ### The events -/

/-- How many beeps have been emitted. -/
def State.beeps (s : State) : Nat := s.events.count .beep

/-! ### The end of a run (R139) -/

/-- About to fetch, at an address `a`, the jump `JP a` to itself (R139 (c)). -/
def State.atIdleLoop (s : State) : Bool :=
  match fetchDecode s with
  | .ok (.jp nnn) => zext16 nnn == s.pc
  | _ => false

/-- The end of a run as the spec's tests use it: quit, an error, or an idle loop (R139). The core itself does not stop
at an idle loop. -/
def State.runEnded (s : State) : Bool := s.status != .running || s.atIdleLoop

end Sys2Proof.Machine
end

