-- ==== Sys2Proof/Certificates/Slice0/Obligations.lean ====
section
/-! DEFINITION. The statements about the machine, from the numbered rules of spec/. -/

open Sys2Proof Sys2Proof.Machine

/-! ### Encoding (30_encoding.md) -/

/-- Decoding the word of a well-formed instruction gives the instruction back, for every operand (R53 to R56, R63). -/
def Obligations.DecodeOfEncode : Prop :=
  ∀ i : Instr, i.wellFormed = true → decode (encode i) = .ok i

/-- Every word that decodes is the word of the instruction it decodes to, which is well-formed: no bit of a word is
dropped and no word is read as another's instruction. The opcode values are the customary table the spec took from
general knowledge (R56, D2, D32; log entry 15). -/
def Obligations.EncodeOfDecode : Prop :=
  ∀ (op : Word) (i : Instr), decode op = .ok i → i.wellFormed = true ∧ encode i = op

/-- Words of leading nibble 0 are CLS, RET or SYS, and each of the leading nibbles 1, 2, 3, 4, 6, 7, A, B, C and D
selects one instruction for all its 4096 words. (R57 and R58, which the spec marks as its own derivations from R53 and
R56.) -/
def Obligations.LeadingNibbleSelects : Prop :=
  (decode 0x00E0#16 = .ok .cls ∧ decode 0x00EE#16 = .ok .ret ∧
    ∀ nnn : Addr, nnn ≠ 0x0E0#12 → nnn ≠ 0x0EE#12 → decode (0x0#4 ++ nnn) = .ok (.sys nnn)) ∧
  (∀ nnn : Addr,
    decode (0x1#4 ++ nnn) = .ok (.jp nnn) ∧ decode (0x2#4 ++ nnn) = .ok (.call nnn) ∧
    decode (0xA#4 ++ nnn) = .ok (.ldI nnn) ∧ decode (0xB#4 ++ nnn) = .ok (.jpV0 nnn)) ∧
  (∀ (x : Nibble) (kk : Byte),
    decode (0x3#4 ++ x ++ kk) = .ok (.seImm x kk) ∧ decode (0x4#4 ++ x ++ kk) = .ok (.sneImm x kk) ∧
    decode (0x6#4 ++ x ++ kk) = .ok (.ldImm x kk) ∧ decode (0x7#4 ++ x ++ kk) = .ok (.addImm x kk) ∧
    decode (0xC#4 ++ x ++ kk) = .ok (.rnd x kk)) ∧
  (∀ x y n : Nibble, decode (0xD#4 ++ x ++ y ++ n) = .ok (.drw x y n))

/-- The unknown words are exactly those of the five rows of R59 (the spec's own derivation from R55 and R56; its counts
are not stated here), and decode refuses each of them by its word. -/
def Obligations.UnknownWordsAreTheListed : Prop :=
  ∀ n1 x n3 n4 : Nibble,
    (decode (n1 ++ x ++ n3 ++ n4) = .error (.unknownOpcode (n1 ++ x ++ n3 ++ n4)) ↔
      (n1 = 0x5#4 ∧ n4 ≠ 0x0#4) ∨
      (n1 = 0x8#4 ∧ n4 ∈ [0x8#4, 0x9#4, 0xA#4, 0xB#4, 0xC#4, 0xD#4, 0xF#4]) ∨
      (n1 = 0x9#4 ∧ n4 ≠ 0x0#4) ∨
      (n1 = 0xE#4 ∧ n3 ++ n4 ∉ [0x9E#8, 0xA1#8]) ∨
      (n1 = 0xF#4 ∧
        n3 ++ n4 ∉ [0x07#8, 0x0A#8, 0x15#8, 0x18#8, 0x1E#8, 0x29#8, 0x33#8, 0x55#8, 0x65#8]))

/-- A few words written out from R56 and the vectors VD1 to VD15 of 95_test_vectors.md. -/
def Obligations.SpecWordsDecode : Prop :=
  decode 0x00E0#16 = .ok .cls ∧ decode 0x00EE#16 = .ok .ret ∧ decode 0x00E1#16 = .ok (.sys 0x0E1#12) ∧
  decode 0x220E#16 = .ok (.call 0x20E#12) ∧ decode 0x5120#16 = .ok (.seReg 1#4 2#4) ∧
  decode 0x8AB6#16 = .ok (.shr 0xA#4 0xB#4) ∧ decode 0xC30F#16 = .ok (.rnd 3#4 0x0F#8) ∧
  decode 0xD121#16 = .ok (.drw 1#4 2#4 1#4) ∧ decode 0xE19E#16 = .ok (.skp 1#4) ∧
  decode 0xF207#16 = .ok (.ldVxDt 2#4) ∧ decode 0xFF65#16 = .ok (.loadRegs 0xF#4) ∧
  decode 0x5121#16 = .error (.unknownOpcode 0x5121#16)

/-! ### Memory and fetch (20_memory.md) -/

/-- MemRead and MemWrite: an address at or past 4095 raises OutOfMemory with that address; below it a read gives the
byte, and a write changes that byte and no other (R36, R37; that a data read faults like a write is the spec's decision
D6). -/
def Obligations.MemReadAndMemWrite : Prop :=
  ∀ (a : Nat) (v : Byte) (s : State), Memory.wf s.mem = true →
    (4095 ≤ a → memRead a s = .error (.outOfMemory a) ∧ memWrite a v s = .error (.outOfMemory a)) ∧
    (a < 4095 → memRead a s = .ok (Memory.read s.mem a) ∧
      ∃ t, memWrite a v s = .ok t ∧ t = { s with mem := t.mem } ∧ Memory.read t.mem a = v ∧
        ∀ b, b ≠ a → Memory.read t.mem b = Memory.read s.mem b)

/-- The fetch raises OutOfMemory with pc for pc at or past 0xFFE (the spec's decision D3), and below it joins the byte
at pc, high, and the byte at pc + 1, low, at an odd pc as at an even one (R41; the byte order is the default of
FETCH_ORDER, R7). -/
def Obligations.FetchJoinsTwoBytes : Prop :=
  ∀ s : State,
    (0xFFE ≤ s.pc.toNat → fetch s = .error (.outOfMemory s.pc.toNat)) ∧
    (s.pc.toNat < 0xFFE → s.cfg.fetchOrder = .bigEndian →
      ∃ op, fetch s = .ok op ∧
        op.toNat = 256 * (Memory.read s.mem s.pc.toNat).toNat + (Memory.read s.mem (s.pc.toNat + 1)).toNat)

/-- A block store is seen by the fetch of every later iteration: the fetch at a stored address joins the stored
registers (R49, the spec's own derivation from R41 and R47). -/
def Obligations.StoreSeenByNextFetch : Prop :=
  ∀ (x : Nibble) (k : Nat) (s t u : State), Memory.wf s.mem = true → s.cfg.fetchOrder = .bigEndian →
    s.I.toNat + x.toNat < 4095 → k < x.toNat → exec (.storeRegs x) s = .next t →
    u.mem = t.mem → u.cfg = s.cfg → u.pc.toNat = s.I.toNat + k →
    fetch u = .ok (s.getV (BitVec.ofNat 4 k) ++ s.getV (BitVec.ofNat 4 (k + 1)))

/-! ### The iteration (30_encoding.md) -/

/-- A step of a running machine that is not told to quit, with the two bytes at pc decoding to `i`, is `exec i` of the
state in which the clock has been sampled, the quit flag polled and the beep check run (R64); after it the host's input
is used up (the model's own bookkeeping, log entries 3 to 5). -/
def Obligations.StepRunsDecodedInstruction : Prop :=
  ∀ (s : State) (op : Word) (i : Instr), s.status = .running → s.input.quit = false →
    fetch s = .ok op → decode op = .ok i →
    let now := s.now + s.input.elapsed
    let due := s.stArmed && decide (s.st.toNat ≤ now - s.stT)
    let u : State :=
      { s with
        now := now
        stArmed := s.stArmed && !due
        events := s.events ++ [.pollQuitRequested] ++ (if due then [.beep] else []) }
    step s =
      match exec i u with
      | .next t => .next { t with inputs := t.inputs.tail, iter := t.iter + 1 }
      | .fault r => .fault r
      | .refused r => .refused r

/-- When quit is requested the iteration executes no instruction, emits no beep and ends the session, whatever stands at
pc: of the spec's state only the status changes (R66). -/
def Obligations.QuitComesFirst : Prop :=
  ∀ s : State, s.status = .running → s.input.quit = true →
    ∃ t, step s = .next t ∧ t.beeps = s.beeps ∧
      t = { s with status := .quit, now := t.now, events := t.events, inputs := t.inputs, iter := t.iter }

/-- A running machine not told to quit, with pc at or past 0xFFE, faults with OutOfMemory(pc) and changes nothing else
but the clock's sample and what the beep check does before the fetch: a beep that is due is emitted and no longer armed
(R41, R65, R67; the bound is the spec's decision D3; the record of events and inputs is the model's own, log entries 3
to 5). -/
def Obligations.FetchOutOfMemoryStep : Prop :=
  ∀ s : State, s.status = .running → s.input.quit = false → 0xFFE ≤ s.pc.toNat →
    let now := s.now + s.input.elapsed
    let due := s.stArmed && decide (s.st.toNat ≤ now - s.stT)
    step s = .next
      { s with
        status := .faulted (.outOfMemory s.pc.toNat)
        now := now
        stArmed := s.stArmed && !due
        events := s.events ++ [.pollQuitRequested] ++ (if due then [.beep] else [])
        inputs := s.inputs.tail
        iter := s.iter + 1 }

/-- Fetching and executing a word that is no instruction changes no state but the status, which records the word; pc
keeps its address (R60). -/
def Obligations.UnknownOpcodeIsFatal : Prop :=
  ∀ (s : State) (op : Word), fetch s = .ok op → (∀ i, decode op ≠ .ok i) →
    fetchExecute s = .next { s with status := .faulted (.unknownOpcode op) } ∧
    (s.status = .running → s.input.quit = false →
      ∃ t, step s = .next t ∧ t.status = .faulted (.unknownOpcode op) ∧ t.pc = s.pc)

/-- A machine that has quit or faulted never changes again (R65, R117; the self-loop form is log entry 2). -/
def Obligations.TerminalStatusStays : Prop :=
  ∀ s : State, (s.status = .quit ∨ ∃ e, s.status = .faulted e) → step s = .next s

/-! ### Creation (10_state.md, 70_reset_and_hazards.md) -/

/-- The state at creation with an image that fits: every value of R31's table, for every image, every setting of the
parameters and every second of creation. The values the source does not give are the spec's decisions D18 and D21 (log
entry 11), the font bytes its general knowledge (log entry 7). -/
def Obligations.LaunchState : Prop :=
  ∀ (cfg : Config) (image : List Byte) (t0 : Nat), image.length ≤ 3583 →
    ∃ s, State.launch cfg fontTable image t0 = some s ∧
      (∀ r, s.getV r = 0#8) ∧ s.I = 0#16 ∧ s.pc = 0x200#16 ∧ s.stack = [] ∧
      (∀ a, a < 0x50 → Memory.read s.mem a = fontTable.getD a 0#8) ∧
      (∀ a, 0x50 ≤ a → a < 0x200 → Memory.read s.mem a = 0#8) ∧
      (∀ j (h : j < image.length), Memory.read s.mem (0x200 + j) = image[j]) ∧
      (∀ a, 0x200 + image.length ≤ a → a < 4095 → Memory.read s.mem a = 0#8) ∧
      s.dt = 0#8 ∧ s.st = 0#8 ∧ s.dtT = t0 ∧ s.stT = t0 ∧ s.stArmed = false ∧
      (∀ col row, Grid.lit s.fb col row = false) ∧ s.status = .running

/-- An image starts a session exactly when it fits into the 3583 bytes from 0x200, and the session without an image,
with the default parameters and second 0 as the second of creation (log entry 4), starts in the reset state (R137: the
bound is the spec's derivation from R5). -/
def Obligations.LoaderBound : Prop :=
  (∀ (cfg : Config) (image : List Byte) (t0 : Nat),
    (State.launch cfg fontTable image t0).isSome = true ↔ image.length ≤ 3583) ∧
  State.launch defaultConfig fontTable [] 0 = some State.reset

/-! ### Invariants -/

/-- Every step from a state that meets the invariant gives a state that meets it: canonical memory, at most 16 stack
entries (R20), pc at most 0x10FE (R18), stack entries at most 0xFFF, no timer stamp in the future. -/
def Obligations.StepKeepsInvariant : Prop :=
  ∀ s t : State, s.Inv → step s = .next t → t.Inv

/-- The reset state meets the invariant. -/
def Obligations.ResetMeetsInvariant : Prop := State.reset.Inv

/-- Every step of every state answers a next state: no error of the core is outside the state, and no instruction is
refused (R115, R116; log entry 1). -/
def Obligations.EveryStepAnswersNext : Prop := ∀ s : State, ∃ t, step s = .next t

/-- A step never changes the parameters. A step of a running machine samples the clock, which never goes back, asks for
the quit flag before any other event, takes no earlier event back, and uses up one input, whatever else it does (R64,
R66, R121, R132; the record of events and inputs is the model's own, log entries 3 to 5). -/
def Obligations.IterationSamplesAndPolls : Prop :=
  ∀ s t : State, step s = .next t →
    t.cfg = s.cfg ∧
    (s.status = .running →
      t.now = s.now + s.input.elapsed ∧ s.events ++ [.pollQuitRequested] <+: t.events ∧
      t.inputs = s.inputs.tail ∧ t.iter = s.iter + 1)

/-! ### Rules over all instructions -/

/-- VF is written as a side effect by 8XY4, 8XY5, 8XY6, 8XY7, 8XYE and DXYN alone, each of which leaves 0 or 1 in it
where it succeeds and VF is not its destination; any other instruction writes VF only where VF is its named destination
(R15). -/
def Obligations.VfWriters : Prop :=
  ∀ (i : Instr) (s t : State), exec i s = .next t →
    match i with
    | .addReg x _ | .sub x _ | .shr x _ | .subn x _ | .shl x _ =>
      x ≠ 15#4 → t.getV 15#4 = 0#8 ∨ t.getV 15#4 = 1#8
    | .drw _ _ _ => t.getV 15#4 = 0#8 ∨ t.getV 15#4 = 1#8
    | .ldImm x _ | .addImm x _ | .ldReg x _ | .orReg x _ | .andReg x _ | .xorReg x _ | .rnd x _ | .ldVxDt x
    | .ldVxK x | .loadRegs x => x ≠ 15#4 → t.getV 15#4 = s.getV 15#4
    | .sys _ | .cls | .ret | .jp _ | .call _ | .seImm _ _ | .sneImm _ _ | .seReg _ _ | .sneReg _ _ | .ldI _ | .jpV0 _
    | .skp _ | .sknp _ | .ldDtVx _ | .ldStVx _ | .addI _ | .ldF _ | .ldB _ | .storeRegs _ =>
      t.getV 15#4 = s.getV 15#4

/-- Who writes the special registers (R29): I only LD I, ADD I and LD F (and the block moves under the two alternatives
of I_AFTER_BLOCK_MOVE, decision D13); the stack only CALL and RET (R21); DT only LD DT and LD Vx, DT; ST and its armed
bit only LD ST. -/
def Obligations.SpecialRegisterWriters : Prop :=
  ∀ (i : Instr) (s t : State), exec i s = .next t →
    (t.I = s.I ∨ (∃ nnn, i = .ldI nnn) ∨ (∃ x, i = .addI x) ∨ (∃ x, i = .ldF x) ∨
      (s.cfg.iAfterBlockMove ≠ .unchanged ∧ ∃ x, i = .storeRegs x ∨ i = .loadRegs x)) ∧
    (t.stack = s.stack ∨ (∃ nnn, i = .call nnn) ∨ i = .ret) ∧
    (SameDelay s t ∨ (∃ x, i = .ldDtVx x) ∨ (∃ x, i = .ldVxDt x)) ∧
    (SameSound s t ∨ ∃ x, i = .ldStVx x)

/-- The pixel grid is mutated only by CLS and DRW (R26), and a byte of memory only by LD B and LD [I], Vx (R107). -/
def Obligations.GridAndMemoryWriters : Prop :=
  ∀ (i : Instr) (s t : State), exec i s = .next t →
    (t.fb = s.fb ∨ i = .cls ∨ ∃ x y n, i = .drw x y n) ∧
    (SameMemory s t ∨ (∃ x, i = .ldB x) ∨ ∃ x, i = .storeRegs x)

/-- Which errors an instruction of a running machine can raise, and their recorded info (the table of R114); where it
raises, pc is not advanced (R116, the spec's decision D24; key errors are its decision D14). -/
def Obligations.ErrorsOfEachInstruction : Prop :=
  ∀ (i : Instr) (s t : State) (e : Error), s.status = .running → exec i s = .next t → t.status = .faulted e →
    t.pc = s.pc ∧
    match i with
    | .call _ => 16 ≤ s.sp ∧ e = .stackOverflow s.callValue
    | .ret => s.sp = 0 ∧ e = .stackUnderflow
    | .drw _ _ n =>
      (4095 < s.I.toNat + n.toNat ∧ e = .outOfMemory (max s.I.toNat 4095)) ∨
      (s.input.displayOk = false ∧ e = .ioError .present)
    | .ldB _ => 4095 < s.I.toNat + 3 ∧ e = .outOfMemory (max s.I.toNat 4095)
    | .storeRegs x | .loadRegs x => 4095 < s.I.toNat + x.toNat + 1 ∧ e = .outOfMemory (max s.I.toNat 4095)
    | .cls => s.input.displayOk = false ∧ e = .ioError .clear
    | .skp x | .sknp x =>
      15 < (s.getV x).toNat ∧ s.cfg.keyRangePolicy = .fault ∧ e = .keyOutOfRange (s.getV x)
    | .sys _ | .jp _ | .seImm _ _ | .sneImm _ _ | .seReg _ _ | .ldImm _ _ | .addImm _ _ | .ldReg _ _ | .orReg _ _
    | .andReg _ _ | .xorReg _ _ | .addReg _ _ | .sub _ _ | .shr _ _ | .subn _ _ | .shl _ _ | .sneReg _ _ | .ldI _
    | .jpV0 _ | .rnd _ _ | .ldVxDt _ | .ldVxK _ | .ldDtVx _ | .ldStVx _ | .addI _ | .ldF _ => False

/-- How an instruction that raises nothing updates pc: the categories of R18's table (RET under the default
CALL_PUSH_VALUE, decision D5). -/
def Obligations.PcCategories : Prop :=
  ∀ (i : Instr) (s t : State), exec i s = .next t → t.status = s.status → s.status = .running →
    match i with
    | .jp nnn | .call nnn => t.pc.toNat = nnn.toNat
    | .jpV0 nnn => t.pc.toNat = nnn.toNat + (s.getV 0#4).toNat
    | .ret => s.cfg.callPushValue = .pcOfCall → s.stack = t.stack ++ [t.pc - 2#16]
    | .ldVxK _ => t.pc = if s.input.firstKey = none then s.pc else s.pc + 2#16
    | .seImm _ _ | .sneImm _ _ | .seReg _ _ | .sneReg _ _ | .skp _ | .sknp _ =>
      t.pc = s.pc + 2#16 ∨ t.pc = s.pc + 4#16
    | .sys _ | .cls | .ldImm _ _ | .addImm _ _ | .ldReg _ _ | .orReg _ _ | .andReg _ _ | .xorReg _ _ | .addReg _ _
    | .sub _ _ | .shr _ _ | .subn _ _ | .shl _ _ | .ldI _ | .rnd _ _ | .drw _ _ _ | .ldVxDt _ | .ldDtVx _ | .ldStVx _
    | .addI _ | .ldF _ | .ldB _ | .storeRegs _ | .loadRegs _ => t.pc = s.pc + 2#16

/-- The host's inputs reach only RND, CLS, DRW, SKP, SKNP and LD Vx, K: every other instruction does the same whatever
the host supplies (R127's table; the clock and the quit flag are read by the iteration, not by an instruction). -/
def Obligations.HostInputsReachOnlySix : Prop :=
  ∀ (i : Instr) (s : State) (inputs : List HostInput) (iter : Nat),
    (∀ x kk, i ≠ .rnd x kk) → i ≠ .cls → (∀ x y n, i ≠ .drw x y n) → (∀ x, i ≠ .skp x) → (∀ x, i ≠ .sknp x) →
    (∀ x, i ≠ .ldVxK x) →
    ∀ t, exec i s = .next t →
      exec i { s with inputs := inputs, iter := iter } = .next { t with inputs := inputs, iter := iter }

/-- A step emits a beep exactly when the machine runs, is not told to quit, and a pending ST write's duration has
elapsed at this iteration's clock sample; never more than one, whatever the iteration then does (R67, R125; decisions
D16 and D17). -/
def Obligations.BeepExactlyWhenDue : Prop :=
  ∀ s t : State, step s = .next t →
    t.beeps = s.beeps +
      (if s.status = .running ∧ s.input.quit = false ∧ s.stArmed = true ∧
          s.st.toNat ≤ s.now + s.input.elapsed - s.stT then 1 else 0)

/-- At most one beep follows each LD ST: a step with no beep pending emits none, and after a step that began with none
pending, or that emitted one, a beep is pending only if the step executed LD ST, which then holds the duration and the
second of that write (consequence (d) of R126, the spec's own derivation from R121 to R125). -/
def Obligations.BeepNeedsSoundWrite : Prop :=
  ∀ s t : State, step s = .next t →
    (s.stArmed = false → t.beeps = s.beeps) ∧
    ((s.stArmed = false ∨ t.beeps ≠ s.beeps) → t.stArmed = true →
      ∃ x, fetchDecode (beforeFetch s) = .ok (.ldStVx x) ∧ t.st = s.getV x ∧ t.stT = t.now)

/-! ### Results: legacy and control transfer (49_legacy_noop.md, 40_control_transfer.md) -/

/-- SYS advances pc by 2 and changes nothing else; its words are those of leading nibble 0 but CLS's and RET's (R112).
-/
def Obligations.SysIsNoOp : Prop :=
  ∀ (nnn : Addr) (s : State),
    (nnn ≠ 0x0E0#12 → nnn ≠ 0x0EE#12 → decode (0x0#4 ++ nnn) = .ok (.sys nnn)) ∧
    exec (.sys nnn) s = .next { s with pc := s.pc + 2#16 }

/-- JP sets pc to NNN and changes nothing else (R70). -/
def Obligations.JumpSetsPc : Prop :=
  ∀ (nnn : Addr) (s : State),
    decode (0x1#4 ++ nnn) = .ok (.jp nnn) ∧
    ∃ t, exec (.jp nnn) s = .next t ∧ t = { s with pc := t.pc } ∧ t.pc.toNat = nnn.toNat

/-- JP V0 sets pc to NNN + V0, not reduced to 12 bits (the spec's decision D40) and never wrapping, and changes nothing
else (R71). -/
def Obligations.IndirectJumpAddsV0 : Prop :=
  ∀ (nnn : Addr) (s : State),
    decode (0xB#4 ++ nnn) = .ok (.jpV0 nnn) ∧
    ∃ t, exec (.jpV0 nnn) s = .next t ∧ t = { s with pc := t.pc } ∧ t.pc.toNat = nnn.toNat + (s.getV 0#4).toNat

/-- Push fails with StackOverflow and the value when the stack holds 16 entries, and appends otherwise (R22); pop fails
with StackUnderflow on the empty stack, and otherwise gives and removes the latest entry, so that push then pop
round-trips the exact value (R23). -/
def Obligations.PushAndPop : Prop :=
  ∀ (v : Word) (s : State),
    (16 ≤ s.stack.length → push v s = .error (.stackOverflow v)) ∧
    (s.stack.length < 16 → ∃ t, push v s = .ok t ∧ t = { s with stack := s.stack ++ [v] } ∧ pop t = .ok (v, s)) ∧
    (s.stack = [] → pop s = .error .stackUnderflow) ∧
    (∀ l, s.stack = l ++ [v] → pop s = .ok (v, { s with stack := l }))

/-- CALL with fewer than 16 entries pushes its own address and jumps; with 16 it raises StackOverflow with the value it
was to push, and neither the stack nor pc changes (R72, R22; what is pushed is the spec's decision D5). The alternative
CALL_PUSH_VALUE pushes pc + 2. -/
def Obligations.CallPushesAndJumps : Prop :=
  ∀ (nnn : Addr) (s : State),
    let v := if s.cfg.callPushValue = .pcOfCall then s.pc else s.pc + 2#16
    decode (0x2#4 ++ nnn) = .ok (.call nnn) ∧
    (s.stack.length < 16 →
      exec (.call nnn) s = .next { s with stack := s.stack ++ [v], pc := BitVec.ofNat 16 nnn.toNat }) ∧
    (16 ≤ s.stack.length → exec (.call nnn) s = .next { s with status := .faulted (.stackOverflow v) })

/-- RET pops the latest entry and resumes at it plus 2 (plus 0 under the alternative CALL_PUSH_VALUE); with an empty
stack it raises StackUnderflow and changes nothing else (R73, R23). -/
def Obligations.RetPopsAndResumes : Prop :=
  ∀ (s : State) (l : List Word) (v : Word),
    decode 0x00EE#16 = .ok .ret ∧
    (s.stack = l ++ [v] →
      exec .ret s = .next
        { s with stack := l, pc := if s.cfg.callPushValue = .pcOfCall then v + 2#16 else v }) ∧
    (s.stack = [] → exec .ret s = .next { s with status := .faulted .stackUnderflow })

/-- After CALL at address c, a RET that finds the stack as the call left it resumes at c + 2 with the caller's stack,
under either CALL_PUSH_VALUE (R72, R73). -/
def Obligations.ReturnAfterCall : Prop :=
  ∀ (nnn : Addr) (s : State), s.stack.length < 16 →
    ∃ t, exec (.call nnn) s = .next t ∧
      ∀ u : State, u.stack = t.stack → u.cfg = t.cfg →
        exec .ret u = .next { u with stack := s.stack, pc := s.pc + 2#16 }

/-! ### Results: skips (41_skip.md) -/

/-- The four compare skips advance pc by 4 when the condition holds, else by 2, and change nothing else (R75 to R78). -/
def Obligations.CompareSkips : Prop :=
  ∀ (x y : Nibble) (kk : Byte) (s : State),
    (decode (0x3#4 ++ x ++ kk) = .ok (.seImm x kk) ∧
      exec (.seImm x kk) s = .next { s with pc := s.pc + if s.getV x = kk then 4#16 else 2#16 }) ∧
    (decode (0x4#4 ++ x ++ kk) = .ok (.sneImm x kk) ∧
      exec (.sneImm x kk) s = .next { s with pc := s.pc + if s.getV x ≠ kk then 4#16 else 2#16 }) ∧
    (decode (0x5#4 ++ x ++ y ++ 0x0#4) = .ok (.seReg x y) ∧
      exec (.seReg x y) s = .next { s with pc := s.pc + if s.getV x = s.getV y then 4#16 else 2#16 }) ∧
    (decode (0x9#4 ++ x ++ y ++ 0x0#4) = .ok (.sneReg x y) ∧
      exec (.sneReg x y) s = .next { s with pc := s.pc + if s.getV x ≠ s.getV y then 4#16 else 2#16 })

/-! ### Results: loads, logic, random (42_load_logic.md, 44_address_random.md) -/

/-- LD Vx, KK, ADD Vx, KK and LD Vx, Vy: the new V[x], every other register and all other state kept, pc advanced by 2
(R80 to R82). -/
def Obligations.LoadAndAddImmediate : Prop :=
  ∀ (x y : Nibble) (kk : Byte) (s : State),
    (decode (0x6#4 ++ x ++ kk) = .ok (.ldImm x kk) ∧
      ∃ t, exec (.ldImm x kk) s = .next t ∧ t = { s with regs := t.regs, pc := s.pc + 2#16 } ∧
        ∀ r, t.getV r = if r = x then kk else s.getV r) ∧
    (decode (0x7#4 ++ x ++ kk) = .ok (.addImm x kk) ∧
      ∃ t, exec (.addImm x kk) s = .next t ∧ t = { s with regs := t.regs, pc := s.pc + 2#16 } ∧
        ∀ r, (t.getV r).toNat = if r = x then ((s.getV x).toNat + kk.toNat) % 256 else (s.getV r).toNat) ∧
    (decode (0x8#4 ++ x ++ y ++ 0x0#4) = .ok (.ldReg x y) ∧
      ∃ t, exec (.ldReg x y) s = .next t ∧ t = { s with regs := t.regs, pc := s.pc + 2#16 } ∧
        ∀ r, t.getV r = if r = x then s.getV y else s.getV r)

/-- OR, AND and XOR act bit by bit on V[x], keep every other register, VF among them, and all other state, and advance
pc by 2 (R83 to R85). -/
def Obligations.BitwiseLogic : Prop :=
  ∀ (x y : Nibble) (s : State),
    (decode (0x8#4 ++ x ++ y ++ 0x1#4) = .ok (.orReg x y) ∧
      ∃ t, exec (.orReg x y) s = .next t ∧ t = { s with regs := t.regs, pc := s.pc + 2#16 } ∧
        (∀ r, r ≠ x → t.getV r = s.getV r) ∧
        ∀ j, (t.getV x).getLsbD j = ((s.getV x).getLsbD j || (s.getV y).getLsbD j)) ∧
    (decode (0x8#4 ++ x ++ y ++ 0x2#4) = .ok (.andReg x y) ∧
      ∃ t, exec (.andReg x y) s = .next t ∧ t = { s with regs := t.regs, pc := s.pc + 2#16 } ∧
        (∀ r, r ≠ x → t.getV r = s.getV r) ∧
        ∀ j, (t.getV x).getLsbD j = ((s.getV x).getLsbD j && (s.getV y).getLsbD j)) ∧
    (decode (0x8#4 ++ x ++ y ++ 0x3#4) = .ok (.xorReg x y) ∧
      ∃ t, exec (.xorReg x y) s = .next t ∧ t = { s with regs := t.regs, pc := s.pc + 2#16 } ∧
        (∀ r, r ≠ x → t.getV r = s.getV r) ∧
        ∀ j, (t.getV x).getLsbD j = ((s.getV x).getLsbD j ^^ (s.getV y).getLsbD j))

/-- RND puts the iteration's random byte masked by KK into V[x], bit by bit, and changes nothing else but pc; with KK =
0 it yields 0 whatever the draw (R96; that the draw is an input without a law is the spec's decision D20). -/
def Obligations.RandomByteMasked : Prop :=
  ∀ (x : Nibble) (kk : Byte) (s : State),
    decode (0xC#4 ++ x ++ kk) = .ok (.rnd x kk) ∧
    ∃ t, exec (.rnd x kk) s = .next t ∧ t = { s with regs := t.regs, pc := s.pc + 2#16 } ∧
      (∀ r, r ≠ x → t.getV r = s.getV r) ∧
      (∀ j, (t.getV x).getLsbD j = (s.input.rand.getLsbD j && kk.getLsbD j)) ∧
      (kk = 0#8 → t.getV x = 0#8)

/-- LD I, ADD I and LD F: the new I, nothing else but pc changed (R94, R95, R111). ADD I wraps modulo 2^16 and writes no
flag (the wrap is the spec's decision D39); LD F multiplies the register's value as it stands (its decision D12), or its
low nibble under the alternative policy. -/
def Obligations.AddressRegisterResults : Prop :=
  ∀ (nnn : Addr) (x : Nibble) (s : State),
    (decode (0xA#4 ++ nnn) = .ok (.ldI nnn) ∧
      exec (.ldI nnn) s = .next { s with I := BitVec.ofNat 16 nnn.toNat, pc := s.pc + 2#16 }) ∧
    (decode (0xF#4 ++ x ++ 0x1E#8) = .ok (.addI x) ∧
      exec (.addI x) s =
        .next { s with I := BitVec.ofNat 16 ((s.I.toNat + (s.getV x).toNat) % 65536), pc := s.pc + 2#16 }) ∧
    (decode (0xF#4 ++ x ++ 0x29#8) = .ok (.ldF x) ∧
      exec (.ldF x) s = .next
        { s with
          I := BitVec.ofNat 16
            (5 * if s.cfg.fontDigitPolicy = .unmasked then (s.getV x).toNat else (s.getV x).toNat % 16)
          pc := s.pc + 2#16 })

/-! ### Results: flag arithmetic (43_alu_flags.md) -/

/-- ADD Vx, Vy: the sum modulo 256 and the carry, for every X and Y and both orders of the two writes; with X = 15 the
later write stays, and Y = 15 is VF's old value (R86, R87; the default order is the spec's decision D9, and both orders
are stated). -/
def Obligations.AddSetsCarry : Prop :=
  ∀ (x y : Nibble) (s : State),
    let a := (s.getV x).toNat
    let b := (s.getV y).toNat
    decode (0x8#4 ++ x ++ y ++ 0x4#4) = .ok (.addReg x y) ∧
    ∃ t, exec (.addReg x y) s = .next t ∧ t = { s with regs := t.regs, pc := s.pc + 2#16 } ∧
      ∀ r, (t.getV r).toNat =
        if r = x ∧ (x ≠ 15#4 ∨ s.cfg.vfWriteOrder = .flagFirst) then (a + b) % 256
        else if r = 15#4 then (if 255 < a + b then 1 else 0)
        else (s.getV r).toNat

/-- SUB and SUBN: the wrapped difference and the strict not-borrow flag, equal operands giving 0 and VF = 0, for every X
and Y and both orders of the two writes; with X = 15 the later write stays, and Y = 15 is VF's old value (R86, R88, R89;
the default order is the spec's decision D9, and both orders are stated). -/
def Obligations.SubtractSetsNotBorrow : Prop :=
  ∀ (x y : Nibble) (s : State),
    let a := (s.getV x).toNat
    let b := (s.getV y).toNat
    (decode (0x8#4 ++ x ++ y ++ 0x5#4) = .ok (.sub x y) ∧
      ∃ t, exec (.sub x y) s = .next t ∧ t = { s with regs := t.regs, pc := s.pc + 2#16 } ∧
        ∀ r, (t.getV r).toNat =
          if r = x ∧ (x ≠ 15#4 ∨ s.cfg.vfWriteOrder = .flagFirst) then (a + 256 - b) % 256
          else if r = 15#4 then (if b < a then 1 else 0)
          else (s.getV r).toNat) ∧
    (decode (0x8#4 ++ x ++ y ++ 0x7#4) = .ok (.subn x y) ∧
      ∃ t, exec (.subn x y) s = .next t ∧ t = { s with regs := t.regs, pc := s.pc + 2#16 } ∧
        ∀ r, (t.getV r).toNat =
          if r = x ∧ (x ≠ 15#4 ∨ s.cfg.vfWriteOrder = .flagFirst) then (b + 256 - a) % 256
          else if r = 15#4 then (if a < b then 1 else 0)
          else (s.getV r).toNat)

/-- SHR and SHL: V[x] (V[y] under the alternative SHIFT_SOURCE) halved or doubled modulo 256, the bit shifted out in VF,
for every X and Y and both orders of the two writes (R86, R90, R91; which register is shifted is the spec's decision D8,
and both settings are stated). -/
def Obligations.ShiftsSetShiftedOutBit : Prop :=
  ∀ (x y : Nibble) (s : State),
    let a := (if s.cfg.shiftSource = .vx then s.getV x else s.getV y).toNat
    (decode (0x8#4 ++ x ++ y ++ 0x6#4) = .ok (.shr x y) ∧
      ∃ t, exec (.shr x y) s = .next t ∧ t = { s with regs := t.regs, pc := s.pc + 2#16 } ∧
        ∀ r, (t.getV r).toNat =
          if r = x ∧ (x ≠ 15#4 ∨ s.cfg.vfWriteOrder = .flagFirst) then a / 2
          else if r = 15#4 then a % 2
          else (s.getV r).toNat) ∧
    (decode (0x8#4 ++ x ++ y ++ 0xE#4) = .ok (.shl x y) ∧
      ∃ t, exec (.shl x y) s = .next t ∧ t = { s with regs := t.regs, pc := s.pc + 2#16 } ∧
        ∀ r, (t.getV r).toNat =
          if r = x ∧ (x ≠ 15#4 ∨ s.cfg.vfWriteOrder = .flagFirst) then 2 * a % 256
          else if r = 15#4 then a / 128
          else (s.getV r).toNat)

/-! ### Results: display (45_display.md) -/

/-- CLS unlights every pixel and emits one `clear`; an ok answer advances pc by 2, an error answer raises
IoError(clear); nothing else changes (R98). -/
def Obligations.ClsClearsGrid : Prop :=
  ∀ s : State,
    decode 0x00E0#16 = .ok .cls ∧
    ∃ t, exec .cls s = .next t ∧ (∀ col row, Grid.lit t.fb col row = false) ∧
      (s.input.displayOk = true →
        t = { s with fb := t.fb, events := s.events ++ [.clear], pc := s.pc + 2#16 }) ∧
      (s.input.displayOk = false →
        t = { s with fb := t.fb, events := s.events ++ [.clear], status := .faulted (.ioError .clear) })

/-- Whether set bit c of sprite row r lands on pixel (col, row) for a sprite placed at (x0, y0): clipped at the edges,
or modulo 64 and 32 under the alternative DRAW_EDGE (R97). -/
def spriteLandsOn (edge : DrawEdge) (x0 y0 c r col row : Nat) : Prop :=
  match edge with
  | .clip => x0 + c = col ∧ y0 + r = row
  | .wrap => (x0 + c) % 64 = col ∧ (y0 + r) % 32 = row

/-- The sprite of height n at I, drawn at (x0, y0), sets pixel (col, row): some set bit of a sprite byte lands on it. -/
def spriteCovers (s : State) (x0 y0 n col row : Nat) : Prop :=
  ∃ c r, c < 8 ∧ r < n ∧ (Memory.read s.mem (s.I.toNat + r)).getLsbD (7 - c) = true ∧
    spriteLandsOn s.cfg.drawEdge x0 y0 c r col row

/-- DRW whose sprite bytes all exist and whose frame is presented: it flips exactly the pixels of the grid the sprite
covers, sets VF to 1 exactly when one of them was lit and to 0 otherwise, presents the new frame once, advances pc by 2
and changes nothing else; the position is taken from the registers before VF is reset (R97, R99; the spec's decisions
D9, D10, D11 and D31 fix what its source leaves open, and both settings of DRAW_EDGE are stated). -/
def Obligations.DrawFlipsCoveredPixels : Prop :=
  ∀ (x y n : Nibble) (s : State), s.I.toNat + n.toNat ≤ 4095 ∨ n = 0#4 → s.input.displayOk = true →
    let x0 := (s.getV x).toNat % 64
    let y0 := (s.getV y).toNat % 32
    decode (0xD#4 ++ x ++ y ++ n) = .ok (.drw x y n) ∧
    ∃ t, exec (.drw x y n) s = .next t ∧
      t = { s with regs := t.regs, fb := t.fb, events := s.events ++ [.present t.fb], pc := s.pc + 2#16 } ∧
      (∀ r, r ≠ 15#4 → t.getV r = s.getV r) ∧
      (∀ col row, col < 64 → row < 32 →
        (Grid.lit t.fb col row = true ↔
          (Grid.lit s.fb col row = true ∧ ¬ spriteCovers s x0 y0 n.toNat col row) ∨
          (Grid.lit s.fb col row = false ∧ spriteCovers s x0 y0 n.toNat col row))) ∧
      ((∃ col row, col < 64 ∧ row < 32 ∧ spriteCovers s x0 y0 n.toNat col row ∧ Grid.lit s.fb col row = true) →
        t.getV 15#4 = 1#8) ∧
      ((¬ ∃ col row, col < 64 ∧ row < 32 ∧ spriteCovers s x0 y0 n.toNat col row ∧ Grid.lit s.fb col row = true) →
        t.getV 15#4 = 0#8)

/-- Drawing the same sprite twice at the same position, from registers other than VF, restores the grid; on a grid that
was blank the second draw reports VF = 1 exactly when the first lit a pixel (a corner case and the source's example in
R99; for a grid that was not blank R99's sentence on the second VF does not hold, log entry 18). -/
def Obligations.DrawTwiceRestoresGrid : Prop :=
  ∀ (x y n : Nibble) (s t u : State), x ≠ 15#4 → y ≠ 15#4 →
    s.I.toNat + n.toNat ≤ 4095 → s.input.displayOk = true →
    exec (.drw x y n) s = .next t → exec (.drw x y n) t = .next u →
    u.fb = s.fb ∧
    ((∀ col row, Grid.lit s.fb col row = false) →
      t.getV 15#4 = 0#8 ∧
      ((∃ col row, Grid.lit t.fb col row = true) → u.getV 15#4 = 1#8) ∧
      ((∀ col row, Grid.lit t.fb col row = false) → u.getV 15#4 = 0#8))

/-- DRW that raises (R99). A sprite byte that does not exist raises OutOfMemory with the lowest such address, after VF
has been reset and before any pixel changes. A frame answered with an error raises IoError(present), with the grid, VF
and the event of the draw as they are when the answer is ok. Neither advances pc. (The order of R99's pseudocode; the
spec asks that no claim rest on the contents of a faulted state beyond its error kind, R116; log entry 17.) -/
def Obligations.DrawErrors : Prop :=
  ∀ (x y n : Nibble) (s : State),
    (n ≠ 0#4 → 4095 < s.I.toNat + n.toNat →
      ∃ t, exec (.drw x y n) s = .next t ∧
        t = { s with regs := t.regs, status := .faulted (.outOfMemory (max s.I.toNat 4095)) } ∧
        ∀ r, t.getV r = if r = 15#4 then 0#8 else s.getV r) ∧
    (s.I.toNat + n.toNat ≤ 4095 ∨ n = 0#4 → s.input.displayOk = false →
      ∃ t u, exec (.drw x y n) s = .next t ∧ t.status = .faulted (.ioError .present) ∧ t.pc = s.pc ∧
        exec (.drw x y n) { s with inputs := { s.input with displayOk := true } :: s.inputs.tail } = .next u ∧
        t.fb = u.fb ∧ t.regs = u.regs ∧ t.events = u.events)

/-! ### Results: input (46_input.md) -/

/-- SKP and SKNP ask the host about the key in V[x] once and skip on held, or on not held; a value above 15 raises
KeyOutOfRange with no query under the default policy, reads as not held with no query under `notPressed`, and asks about
its low nibble under `maskLowNibble` (R100 to R102; the policy is the spec's decision D14, and all three are stated). -/
def Obligations.KeySkips : Prop :=
  ∀ (x : Nibble) (s : State),
    let v := s.getV x
    let k := v.toNat % 16
    let held := s.input.keysDown.getLsbD k
    let asked := s.events ++ [.isKeyDown (BitVec.ofNat 4 k)]
    decode (0xE#4 ++ x ++ 0x9E#8) = .ok (.skp x) ∧ decode (0xE#4 ++ x ++ 0xA1#8) = .ok (.sknp x) ∧
    (v.toNat ≤ 15 ∨ s.cfg.keyRangePolicy = .maskLowNibble →
      exec (.skp x) s = .next { s with events := asked, pc := s.pc + if held then 4#16 else 2#16 } ∧
      exec (.sknp x) s = .next { s with events := asked, pc := s.pc + if held then 2#16 else 4#16 }) ∧
    (15 < v.toNat → s.cfg.keyRangePolicy = .notPressed →
      exec (.skp x) s = .next { s with pc := s.pc + 2#16 } ∧
      exec (.sknp x) s = .next { s with pc := s.pc + 4#16 }) ∧
    (15 < v.toNat → s.cfg.keyRangePolicy = .fault →
      exec (.skp x) s = .next { s with status := .faulted (.keyOutOfRange v) } ∧
      exec (.sknp x) s = .next { s with status := .faulted (.keyOutOfRange v) })

/-- LD Vx, K asks the host once; with no key it changes nothing else, so that the next iteration runs it again, and with
key k it puts k into V[x] and advances pc by 2 (R103; which of several keys is answered is the host's, decision D27). -/
def Obligations.WaitForKey : Prop :=
  ∀ (x : Nibble) (s : State),
    decode (0xF#4 ++ x ++ 0x0A#8) = .ok (.ldVxK x) ∧
    (s.input.firstKey = none →
      exec (.ldVxK x) s = .next { s with events := s.events ++ [.firstPressedKey] }) ∧
    (∀ k, s.input.firstKey = some k →
      ∃ t, exec (.ldVxK x) s = .next t ∧
        t = { s with regs := t.regs, events := s.events ++ [.firstPressedKey], pc := s.pc + 2#16 } ∧
        ∀ r, (t.getV r).toNat = if r = x then k.toNat else (s.getV r).toNat)

/-! ### Results: timers (47_timers.md, 60_exceptions.md) -/

/-- LD Vx, DT puts max(0, DT - elapsed seconds) into V[x] and into DT, with the clock's sample as the new timestamp, and
changes nothing else but pc (R104, R122; that the timestamp is committed too is the spec's decision D15). -/
def Obligations.DelayReadDecays : Prop :=
  ∀ (x : Nibble) (s : State),
    decode (0xF#4 ++ x ++ 0x07#8) = .ok (.ldVxDt x) ∧
    ∃ t, exec (.ldVxDt x) s = .next t ∧
      t = { s with regs := t.regs, dt := t.dt, dtT := s.now, pc := s.pc + 2#16 } ∧
      t.dt = t.getV x ∧
      ∀ r, (t.getV r).toNat = if r = x then s.dt.toNat - (s.now - s.dtT) else (s.getV r).toNat

/-- LD DT writes the value and the timestamp together (R105, R123); LD ST does, and arms one beep (R106, R124, decision
D16). Neither changes anything else but pc. -/
def Obligations.TimerWrites : Prop :=
  ∀ (x : Nibble) (s : State),
    (decode (0xF#4 ++ x ++ 0x15#8) = .ok (.ldDtVx x) ∧
      exec (.ldDtVx x) s = .next { s with dt := s.getV x, dtT := s.now, pc := s.pc + 2#16 }) ∧
    (decode (0xF#4 ++ x ++ 0x18#8) = .ok (.ldStVx x) ∧
      exec (.ldStVx x) s = .next { s with st := s.getV x, stT := s.now, stArmed := true, pc := s.pc + 2#16 })

/-- A delay read gives the same value whether or not an earlier read came in between: with v0 written at second tw, a
read at second t2 gives max(0, v0 - (t2 - tw)) although a read at t1, between the two, committed its own value; two
reads in the same second give the same value (R126). -/
def Obligations.DelayReadsCompose : Prop :=
  ∀ (x y : Nibble) (s t u : State) (w : State), s.dtT ≤ s.now →
    exec (.ldVxDt x) s = .next t →
    u.dt = t.dt → u.dtT = t.dtT → t.now ≤ u.now → exec (.ldVxDt y) u = .next w →
    (w.getV y).toNat = s.dt.toNat - (u.now - s.dtT) ∧ (u.now = s.now → w.getV y = t.getV x)

/-! ### Results: memory block moves and BCD (48_memory_bcd.md) -/

/-- What I holds after a block move of V[0] to V[x] (R107): unchanged, or the value of one of the two alternatives
(which wrap modulo 2^16 and are written only where nothing is raised: log entry 10). -/
def iAfterMove (s : State) (x : Nibble) : Word :=
  match s.cfg.iAfterBlockMove with
  | .unchanged => s.I
  | .plusXPlus1 => BitVec.ofNat 16 (s.I.toNat + x.toNat + 1)
  | .plusX => BitVec.ofNat 16 (s.I.toNat + x.toNat)

/-- LD [I], Vx whose bytes all exist stores V[0] to V[x] at I, I + 1, ... and changes nothing else but pc (and I under
the alternatives of I_AFTER_BLOCK_MOVE, R107, decision D13, log entry 10). Where a byte does not exist it raises
OutOfMemory with the lowest such address; the registers before it are stored and nothing else changes, pc and I among it
(R108; that I is kept under the alternatives too is log entry 10). -/
def Obligations.StoreRegisters : Prop :=
  ∀ (x : Nibble) (s : State), Memory.wf s.mem = true →
    decode (0xF#4 ++ x ++ 0x55#8) = .ok (.storeRegs x) ∧
    (s.I.toNat + x.toNat < 4095 →
      ∃ t, exec (.storeRegs x) s = .next t ∧
        t = { s with mem := t.mem, I := iAfterMove s x, pc := s.pc + 2#16 } ∧
        (∀ r : Nibble, r ≤ x → Memory.read t.mem (s.I.toNat + r.toNat) = s.getV r) ∧
        SameMemoryBut s.I.toNat (x.toNat + 1) s t) ∧
    (4095 ≤ s.I.toNat + x.toNat →
      ∃ t, exec (.storeRegs x) s = .next t ∧
        t = { s with mem := t.mem, status := .faulted (.outOfMemory (max s.I.toNat 4095)) } ∧
        (∀ r : Nibble, s.I.toNat + r.toNat < 4095 → Memory.read t.mem (s.I.toNat + r.toNat) = s.getV r) ∧
        SameMemoryBut s.I.toNat (4095 - s.I.toNat) s t)

/-- LD Vx, [I] whose bytes all exist loads V[0] to V[x] from I, I + 1, ... and changes nothing else but pc (and I under
the alternatives of I_AFTER_BLOCK_MOVE, R107, decision D13, log entry 10). Where a byte does not exist it raises
OutOfMemory with the lowest such address (the spec's decision D6); the registers before it are loaded and nothing else
changes, pc and I among it (R109; that I is kept under the alternatives too is log entry 10). -/
def Obligations.LoadRegisters : Prop :=
  ∀ (x : Nibble) (s : State),
    decode (0xF#4 ++ x ++ 0x65#8) = .ok (.loadRegs x) ∧
    (s.I.toNat + x.toNat < 4095 →
      ∃ t, exec (.loadRegs x) s = .next t ∧
        t = { s with regs := t.regs, I := iAfterMove s x, pc := s.pc + 2#16 } ∧
        ∀ r : Nibble, t.getV r = if r ≤ x then Memory.read s.mem (s.I.toNat + r.toNat) else s.getV r) ∧
    (4095 ≤ s.I.toNat + x.toNat →
      ∃ t, exec (.loadRegs x) s = .next t ∧
        t = { s with regs := t.regs, status := .faulted (.outOfMemory (max s.I.toNat 4095)) } ∧
        ∀ r : Nibble, t.getV r =
          if s.I.toNat + r.toNat < 4095 then Memory.read s.mem (s.I.toNat + r.toNat) else s.getV r)

/-- After LD [I], Vx then LD Vx, [I] with I as it was before the store, no register has changed (R109). -/
def Obligations.LoadAfterStoreRestores : Prop :=
  ∀ (x : Nibble) (s t u w : State), Memory.wf s.mem = true → s.I.toNat + x.toNat < 4095 →
    exec (.storeRegs x) s = .next t → u.mem = t.mem → u.regs = t.regs → u.I = s.I →
    exec (.loadRegs x) u = .next w → w.regs = s.regs

/-- LD B whose three bytes exist stores the hundreds, tens and ones of V[x], digits that give the value back, and
changes nothing else but pc. Where one of the three does not exist it raises OutOfMemory with the lowest such address;
the digits before it are stored and nothing else changes (R110). -/
def Obligations.StoreDecimalDigits : Prop :=
  ∀ (x : Nibble) (s : State), Memory.wf s.mem = true →
    decode (0xF#4 ++ x ++ 0x33#8) = .ok (.ldB x) ∧
    ∃ h d o : Nat, h ≤ 2 ∧ d ≤ 9 ∧ o ≤ 9 ∧ 100 * h + 10 * d + o = (s.getV x).toNat ∧
      (s.I.toNat + 3 ≤ 4095 →
        ∃ t, exec (.ldB x) s = .next t ∧ t = { s with mem := t.mem, pc := s.pc + 2#16 } ∧
          SameMemoryBut s.I.toNat 3 s t ∧
          (Memory.read t.mem s.I.toNat).toNat = h ∧ (Memory.read t.mem (s.I.toNat + 1)).toNat = d ∧
          (Memory.read t.mem (s.I.toNat + 2)).toNat = o) ∧
      (4095 < s.I.toNat + 3 →
        ∃ t, exec (.ldB x) s = .next t ∧
          t = { s with mem := t.mem, status := .faulted (.outOfMemory (max s.I.toNat 4095)) } ∧
          SameMemoryBut s.I.toNat (4095 - s.I.toNat) s t ∧
          (s.I.toNat < 4095 → (Memory.read t.mem s.I.toNat).toNat = h) ∧
          (s.I.toNat + 1 < 4095 → (Memory.read t.mem (s.I.toNat + 1)).toNat = d))

/-! ### Frames -/

/-- SYS, the jumps and the compare skips change pc alone; CALL and RET change pc and the stack, and may record an error
(R18, R69, R74, R112). -/
def Obligations.FrameControl : Prop :=
  ∀ (i : Instr) (s t : State), exec i s = .next t →
    match i with
    | .sys _ | .jp _ | .jpV0 _ | .seImm _ _ | .sneImm _ _ | .seReg _ _ | .sneReg _ _ =>
      SameRegsBut [] s t ∧ SameMemory s t ∧ t.I = s.I ∧ t.stack = s.stack ∧ SameDelay s t ∧ SameSound s t ∧
        t.fb = s.fb ∧ t.status = s.status ∧ SameHost s t ∧ t.events = s.events
    | .call _ | .ret =>
      SameRegsBut [] s t ∧ SameMemory s t ∧ t.I = s.I ∧ SameDelay s t ∧ SameSound s t ∧
        t.fb = s.fb ∧ SameStatusOrError s t ∧ SameHost s t ∧ t.events = s.events
    | _ => True

/-- The loads, logic, RND and the delay read change V[x] and pc (the delay read also DT and its timestamp); the flag
arithmetic changes V[x], VF and pc; nothing else (R15, R79, R92, R96, R104). -/
def Obligations.FrameRegisterResults : Prop :=
  ∀ (i : Instr) (s t : State), exec i s = .next t →
    match i with
    | .ldImm x _ | .addImm x _ | .ldReg x _ | .orReg x _ | .andReg x _ | .xorReg x _ | .rnd x _ =>
      SameRegsBut [x] s t ∧ SameMemory s t ∧ t.I = s.I ∧ t.stack = s.stack ∧ SameDelay s t ∧ SameSound s t ∧
        t.fb = s.fb ∧ t.status = s.status ∧ SameHost s t ∧ t.events = s.events
    | .addReg x _ | .sub x _ | .subn x _ | .shr x _ | .shl x _ =>
      SameRegsBut [x, 15#4] s t ∧ SameMemory s t ∧ t.I = s.I ∧ t.stack = s.stack ∧ SameDelay s t ∧ SameSound s t ∧
        t.fb = s.fb ∧ t.status = s.status ∧ SameHost s t ∧ t.events = s.events
    | .ldVxDt x =>
      SameRegsBut [x] s t ∧ SameMemory s t ∧ t.I = s.I ∧ t.stack = s.stack ∧ SameSound s t ∧
        t.fb = s.fb ∧ t.status = s.status ∧ SameHost s t ∧ t.events = s.events
    | _ => True

/-- LD I, ADD I and LD F change I and pc; LD DT changes DT, its timestamp and pc; LD ST changes ST, its timestamp, its
armed bit and pc; nothing else (R93, R105, R106, R111). -/
def Obligations.FrameAddressAndTimerWrites : Prop :=
  ∀ (i : Instr) (s t : State), exec i s = .next t →
    match i with
    | .ldI _ | .addI _ | .ldF _ =>
      SameRegsBut [] s t ∧ SameMemory s t ∧ t.stack = s.stack ∧ SameDelay s t ∧ SameSound s t ∧
        t.fb = s.fb ∧ t.status = s.status ∧ SameHost s t ∧ t.events = s.events
    | .ldDtVx _ =>
      SameRegsBut [] s t ∧ SameMemory s t ∧ t.I = s.I ∧ t.stack = s.stack ∧ SameSound s t ∧
        t.fb = s.fb ∧ t.status = s.status ∧ SameHost s t ∧ t.events = s.events
    | .ldStVx _ =>
      SameRegsBut [] s t ∧ SameMemory s t ∧ t.I = s.I ∧ t.stack = s.stack ∧ SameDelay s t ∧
        t.fb = s.fb ∧ t.status = s.status ∧ SameHost s t ∧ t.events = s.events
    | _ => True

/-- CLS and DRW change the grid, the events and pc, DRW also VF, and may record an error; SKP and SKNP change the events
and pc, LD Vx, K also V[x], and the skips may record an error; nothing else (R98 to R103). -/
def Obligations.FrameDisplayAndInput : Prop :=
  ∀ (i : Instr) (s t : State), exec i s = .next t →
    match i with
    | .cls =>
      SameRegsBut [] s t ∧ SameMemory s t ∧ t.I = s.I ∧ t.stack = s.stack ∧ SameDelay s t ∧ SameSound s t ∧
        SameStatusOrError s t ∧ SameHost s t
    | .drw _ _ _ =>
      SameRegsBut [15#4] s t ∧ SameMemory s t ∧ t.I = s.I ∧ t.stack = s.stack ∧ SameDelay s t ∧ SameSound s t ∧
        SameStatusOrError s t ∧ SameHost s t
    | .skp _ | .sknp _ =>
      SameRegsBut [] s t ∧ SameMemory s t ∧ t.I = s.I ∧ t.stack = s.stack ∧ SameDelay s t ∧ SameSound s t ∧
        t.fb = s.fb ∧ SameStatusOrError s t ∧ SameHost s t
    | .ldVxK x =>
      SameRegsBut [x] s t ∧ SameMemory s t ∧ t.I = s.I ∧ t.stack = s.stack ∧ SameDelay s t ∧ SameSound s t ∧
        t.fb = s.fb ∧ t.status = s.status ∧ SameHost s t
    | _ => True

/-- LD [I], Vx and LD B change the bytes they store, at I and the addresses after it, and pc; LD Vx, [I] changes V[0] to
V[x] and pc; the block moves keep I, or, where they raise nothing, leave it as I_AFTER_BLOCK_MOVE says (log entry 10);
each may record an error; nothing else (R107 to R110). -/
def Obligations.FrameBlockMoves : Prop :=
  ∀ (i : Instr) (s t : State), exec i s = .next t →
    match i with
    | .storeRegs x =>
      SameRegsBut [] s t ∧ SameMemoryBut (s.addr 0) (x.toNat + 1) s t ∧
        ((t.pc = s.pc + 2#16 ∧ t.I = iAfterMove s x) ∨ (t.pc = s.pc ∧ t.I = s.I)) ∧ t.stack = s.stack ∧ SameDelay s t ∧ SameSound s t ∧
        t.fb = s.fb ∧ SameStatusOrError s t ∧ SameHost s t ∧ t.events = s.events
    | .ldB _ =>
      SameRegsBut [] s t ∧ SameMemoryBut (s.addr 0) 3 s t ∧ t.I = s.I ∧ t.stack = s.stack ∧ SameDelay s t ∧
        SameSound s t ∧ t.fb = s.fb ∧ SameStatusOrError s t ∧ SameHost s t ∧ t.events = s.events
    | .loadRegs x =>
      (∀ r : Nibble, x < r → t.getV r = s.getV r) ∧ SameMemory s t ∧
        ((t.pc = s.pc + 2#16 ∧ t.I = iAfterMove s x) ∨ (t.pc = s.pc ∧ t.I = s.I)) ∧ t.stack = s.stack ∧ SameDelay s t ∧ SameSound s t ∧
        t.fb = s.fb ∧ SameStatusOrError s t ∧ SameHost s t ∧ t.events = s.events
    | _ => True
end

