-- ==== Sys2Proof/Laws/Decode.lean ====
section
/-! SUPPORT. A word as its four nibbles, and when it hits a pattern (R8, R51 to R53). -/

namespace Sys2Proof

/-- The leading nibble, `op[15:12]`. -/
def fieldN1 (op : Word) : Nibble := op.extractLsb' 12 4

/-! ### Fields of a word built from fields -/

@[simp] theorem fieldN_encXYN (a x y n : Nibble) : fieldN (encXYN a x y n) = n :=
  BitVec.extractLsb'_append_eq_right

@[simp] theorem fieldY_encXYN (a x y n : Nibble) : fieldY (encXYN a x y n) = y :=
  (BitVec.extractLsb'_append_eq_of_le (xhi := a ++ x ++ y) (xlo := n) (start := 4) (by decide)).trans
    BitVec.extractLsb'_append_eq_right

@[simp] theorem fieldX_encXYN (a x y n : Nibble) : fieldX (encXYN a x y n) = x :=
  (BitVec.extractLsb'_append_eq_of_le (xhi := a ++ x ++ y) (xlo := n) (start := 8) (by decide)).trans
    ((BitVec.extractLsb'_append_eq_of_le (xhi := a ++ x) (xlo := y) (start := 4) (by decide)).trans
      BitVec.extractLsb'_append_eq_right)

@[simp] theorem fieldN1_encXYN (a x y n : Nibble) : fieldN1 (encXYN a x y n) = a :=
  (BitVec.extractLsb'_append_eq_of_le (xhi := a ++ x ++ y) (xlo := n) (start := 12) (by decide)).trans
    ((BitVec.extractLsb'_append_eq_of_le (xhi := a ++ x) (xlo := y) (start := 8) (by decide)).trans
      ((BitVec.extractLsb'_append_eq_of_le (xhi := a) (xlo := x) (start := 4) (by decide)).trans
        BitVec.extractLsb'_eq_self))

@[simp] theorem fieldX_encXKK (a x : Nibble) (kk : Byte) : fieldX (encXKK a x kk) = x :=
  (BitVec.extractLsb'_append_eq_of_le (xhi := a ++ x) (xlo := kk) (start := 8) (by decide)).trans
    BitVec.extractLsb'_append_eq_right

@[simp] theorem fieldKK_encXKK (a x : Nibble) (kk : Byte) : fieldKK (encXKK a x kk) = kk :=
  BitVec.extractLsb'_append_eq_right

@[simp] theorem fieldN1_encXKK (a x : Nibble) (kk : Byte) : fieldN1 (encXKK a x kk) = a :=
  (BitVec.extractLsb'_append_eq_of_le (xhi := a ++ x) (xlo := kk) (start := 12) (by decide)).trans
    ((BitVec.extractLsb'_append_eq_of_le (xhi := a) (xlo := x) (start := 4) (by decide)).trans
      BitVec.extractLsb'_eq_self)

@[simp] theorem fieldNNN_encNNN (a : Nibble) (nnn : Addr) : fieldNNN (encNNN a nnn) = nnn :=
  BitVec.extractLsb'_append_eq_right

@[simp] theorem fieldN1_encNNN (a : Nibble) (nnn : Addr) : fieldN1 (encNNN a nnn) = a :=
  (BitVec.extractLsb'_append_eq_of_le (xhi := a) (xlo := nnn) (start := 12) (by decide)).trans
    BitVec.extractLsb'_eq_self

/-! ### Fields of a literal word -/

theorem fieldN1_ofNat (n : Nat) : fieldN1 (BitVec.ofNat 16 n) = BitVec.ofNat 4 (n / 4096) := by
  apply BitVec.eq_of_toNat_eq; simp [fieldN1, Nat.shiftRight_eq_div_pow]; omega

theorem fieldX_ofNat (n : Nat) : fieldX (BitVec.ofNat 16 n) = BitVec.ofNat 4 (n / 256) := by
  apply BitVec.eq_of_toNat_eq; simp [fieldX, Nat.shiftRight_eq_div_pow]; omega

theorem fieldY_ofNat (n : Nat) : fieldY (BitVec.ofNat 16 n) = BitVec.ofNat 4 (n / 16) := by
  apply BitVec.eq_of_toNat_eq; simp [fieldY, Nat.shiftRight_eq_div_pow]; omega

theorem fieldN_ofNat (n : Nat) : fieldN (BitVec.ofNat 16 n) = BitVec.ofNat 4 n := by
  apply BitVec.eq_of_toNat_eq; simp [fieldN]

/-! ### A word from its fields -/

/-- Every word is its four nibbles. -/
theorem encXYN_fields (op : Word) : encXYN (fieldN1 op) (fieldX op) (fieldY op) (fieldN op) = op := by
  ext i hi
  show (op.extractLsb' 12 4 ++ op.extractLsb' 8 4 ++ op.extractLsb' 4 4 ++ op.extractLsb' 0 4 :
    BitVec (4 + 4 + 4 + 4))[i] = op[i]
  simp only [BitVec.getLsbD_append, BitVec.getLsbD_extractLsb', ← BitVec.getLsbD_eq_getElem]
  split
  · simp; omega
  · split
    · simp [show 4 + (i - 4) = i by omega]; omega
    · split
      · simp [show 8 + (i - 4 - 4) = i by omega]; omega
      · simp [show 12 + (i - 4 - 4 - 4) = i by omega]; omega

/-- The two halves of a byte. -/
theorem byte_nibbles (kk : Byte) : (kk.extractLsb' 4 4 ++ kk.extractLsb' 0 4 : BitVec (4 + 4)) = kk := by
  ext i hi
  simp only [BitVec.getLsbD_append, BitVec.getLsbD_extractLsb', ← BitVec.getLsbD_eq_getElem]
  split
  · simp; omega
  · simp [show 4 + (i - 4) = i by omega]; omega

/-- A byte operand as two nibbles. -/
theorem encXKK_eq_encXYN (a x : Nibble) (kk : Byte) :
    encXKK a x kk = encXYN a x (kk.extractLsb' 4 4) (kk.extractLsb' 0 4) := by
  have h := encXYN_fields (encXKK a x kk)
  rw [fieldN1_encXKK, fieldX_encXKK] at h
  rw [← h]
  congr 1
  · exact BitVec.extractLsb'_append_eq_of_add_le (by decide)
  · exact BitVec.extractLsb'_append_eq_of_add_le (by decide)

/-- A 12-bit operand as three nibbles. -/
theorem encNNN_eq_encXYN (a : Nibble) (nnn : Addr) :
    encNNN a nnn = encXYN a (nnn.extractLsb' 8 4) (nnn.extractLsb' 4 4) (nnn.extractLsb' 0 4) := by
  have h := encXYN_fields (encNNN a nnn)
  rw [fieldN1_encNNN] at h
  rw [← h]
  congr 1
  · exact BitVec.extractLsb'_append_eq_of_add_le (by decide)
  · exact BitVec.extractLsb'_append_eq_of_add_le (by decide)
  · exact BitVec.extractLsb'_append_eq_of_add_le (by decide)

/-- Two words are equal when their nibbles are. -/
theorem encXYN_eq_iff {a x y n : Nibble} {op : Word} :
    encXYN a x y n = op ↔ a = fieldN1 op ∧ x = fieldX op ∧ y = fieldY op ∧ n = fieldN op := by
  constructor
  · rintro rfl; simp
  · rintro ⟨rfl, rfl, rfl, rfl⟩; exact encXYN_fields op

/-! ### The masks of R52 -/

theorem and_encXYN (a x y n b z w m : Nibble) :
    encXYN a x y n &&& encXYN b z w m = encXYN (a &&& b) (x &&& z) (y &&& w) (n &&& m) := by
  show (a ++ x ++ y ++ n : BitVec (4 + 4 + 4 + 4)) &&& (b ++ z ++ w ++ m : BitVec (4 + 4 + 4 + 4)) = _
  rw [BitVec.and_append, BitVec.and_append, BitVec.and_append]; rfl

theorem nibble_and_ones : ∀ x : Nibble, x &&& 0xF#4 = x := by decide

theorem nibble_and_zero : ∀ x : Nibble, x &&& 0x0#4 = 0x0#4 := by decide

@[simp] theorem mask_F000 (a x y n : Nibble) : encXYN a x y n &&& 0xF000#16 = encXYN a 0#4 0#4 0#4 := by
  rw [show (0xF000#16) = encXYN 0xF#4 0x0#4 0x0#4 0x0#4 by decide, and_encXYN]
  simp only [nibble_and_ones, nibble_and_zero]

@[simp] theorem mask_F00F (a x y n : Nibble) : encXYN a x y n &&& 0xF00F#16 = encXYN a 0#4 0#4 n := by
  rw [show (0xF00F#16) = encXYN 0xF#4 0x0#4 0x0#4 0xF#4 by decide, and_encXYN]
  simp only [nibble_and_ones, nibble_and_zero]

@[simp] theorem mask_F0FF (a x y n : Nibble) : encXYN a x y n &&& 0xF0FF#16 = encXYN a 0#4 y n := by
  rw [show (0xF0FF#16) = encXYN 0xF#4 0x0#4 0xF#4 0xF#4 by decide, and_encXYN]
  simp only [nibble_and_ones, nibble_and_zero]

@[simp] theorem mask_FFFF (a x y n : Nibble) : encXYN a x y n &&& 0xFFFF#16 = encXYN a x y n := by
  rw [show (0xFFFF#16) = encXYN 0xF#4 0xF#4 0xF#4 0xF#4 by decide, and_encXYN]
  simp only [nibble_and_ones]

/-! ### When a word hits a pattern (R56) -/

theorem hits_exact (a x y n : Nibble) (bits : Word) (f : Word → Instr) :
    Pattern.hits ⟨0xFFFF#16, bits, f⟩ (encXYN a x y n) =
      decide (a = fieldN1 bits ∧ x = fieldX bits ∧ y = fieldY bits ∧ n = fieldN bits) := by
  rw [Pattern.hits, mask_FFFF, Bool.beq_eq_decide_eq]
  exact decide_eq_decide.mpr encXYN_eq_iff

theorem hits_AXBC (a x y n : Nibble) (bits : Word) (f : Word → Instr) (hx : fieldX bits = 0#4) :
    Pattern.hits ⟨0xF0FF#16, bits, f⟩ (encXYN a x y n) =
      decide (a = fieldN1 bits ∧ y = fieldY bits ∧ n = fieldN bits) := by
  rw [Pattern.hits, mask_F0FF, Bool.beq_eq_decide_eq]
  refine decide_eq_decide.mpr (encXYN_eq_iff.trans ?_)
  simp [hx]

theorem hits_AXYB (a x y n : Nibble) (bits : Word) (f : Word → Instr) (hx : fieldX bits = 0#4)
    (hy : fieldY bits = 0#4) :
    Pattern.hits ⟨0xF00F#16, bits, f⟩ (encXYN a x y n) = decide (a = fieldN1 bits ∧ n = fieldN bits) := by
  rw [Pattern.hits, mask_F00F, Bool.beq_eq_decide_eq]
  refine decide_eq_decide.mpr (encXYN_eq_iff.trans ?_)
  simp [hx, hy]

theorem hits_oneNibble (a x y n : Nibble) (bits : Word) (f : Word → Instr) (hx : fieldX bits = 0#4)
    (hy : fieldY bits = 0#4) (hn : fieldN bits = 0#4) :
    Pattern.hits ⟨0xF000#16, bits, f⟩ (encXYN a x y n) = decide (a = fieldN1 bits) := by
  rw [Pattern.hits, mask_F000, Bool.beq_eq_decide_eq]
  refine decide_eq_decide.mpr (encXYN_eq_iff.trans ?_)
  simp [hx, hy, hn]

/-! ### Decoding (R55) -/

theorem decodeWith_append (op : Word) (ps qs : List Pattern) :
    decodeWith op (ps ++ qs) =
      match ps.find? (fun p => p.hits op) with
      | some p => .ok (p.build op)
      | none => decodeWith op qs := by
  induction ps with
  | nil => rfl
  | cons p ps ih =>
    simp only [List.cons_append, decodeWith, List.find?]
    cases p.hits op <;> simp [ih]

/-- A decode answers an instruction of a pattern of the table that the word hits, or refuses the word by name. -/
theorem decodeWith_cases (op : Word) (ps : List Pattern) :
    (∃ p ∈ ps, p.hits op = true ∧ decodeWith op ps = .ok (p.build op)) ∨
    ((∀ p ∈ ps, p.hits op = false) ∧ decodeWith op ps = .error (.unknownOpcode op)) := by
  induction ps with
  | nil => exact .inr ⟨by simp, rfl⟩
  | cons p ps ih =>
    rw [decodeWith]
    cases h : p.hits op with
    | true => exact .inl ⟨p, by simp, h, by simp⟩
    | false =>
      rcases ih with ⟨q, hq, hh, he⟩ | ⟨hall, he⟩
      · exact .inl ⟨q, by simp [hq], hh, by simpa using he⟩
      · exact .inr ⟨by simpa [h] using hall, by simpa using he⟩

end Sys2Proof
end

