-- ==== Sys2Proof/Laws/State.lean ====
section
/-! SUPPORT. One lemma per field per update of the state, and the register file's read and write. -/

namespace Sys2Proof.Machine

/-! ### `setV` -/

@[simp] theorem State.setV_regs (s : State) (x : Nibble) (v : Byte) : (s.setV x v).regs = s.regs.set x.toNat v := rfl
@[simp] theorem State.setV_I (s : State) (x : Nibble) (v : Byte) : (s.setV x v).I = s.I := rfl
@[simp] theorem State.setV_pc (s : State) (x : Nibble) (v : Byte) : (s.setV x v).pc = s.pc := rfl
@[simp] theorem State.setV_stack (s : State) (x : Nibble) (v : Byte) : (s.setV x v).stack = s.stack := rfl
@[simp] theorem State.setV_mem (s : State) (x : Nibble) (v : Byte) : (s.setV x v).mem = s.mem := rfl
@[simp] theorem State.setV_dt (s : State) (x : Nibble) (v : Byte) : (s.setV x v).dt = s.dt := rfl
@[simp] theorem State.setV_dtT (s : State) (x : Nibble) (v : Byte) : (s.setV x v).dtT = s.dtT := rfl
@[simp] theorem State.setV_st (s : State) (x : Nibble) (v : Byte) : (s.setV x v).st = s.st := rfl
@[simp] theorem State.setV_stT (s : State) (x : Nibble) (v : Byte) : (s.setV x v).stT = s.stT := rfl
@[simp] theorem State.setV_stArmed (s : State) (x : Nibble) (v : Byte) : (s.setV x v).stArmed = s.stArmed := rfl
@[simp] theorem State.setV_fb (s : State) (x : Nibble) (v : Byte) : (s.setV x v).fb = s.fb := rfl
@[simp] theorem State.setV_status (s : State) (x : Nibble) (v : Byte) : (s.setV x v).status = s.status := rfl
@[simp] theorem State.setV_cfg (s : State) (x : Nibble) (v : Byte) : (s.setV x v).cfg = s.cfg := rfl
@[simp] theorem State.setV_now (s : State) (x : Nibble) (v : Byte) : (s.setV x v).now = s.now := rfl
@[simp] theorem State.setV_inputs (s : State) (x : Nibble) (v : Byte) : (s.setV x v).inputs = s.inputs := rfl
@[simp] theorem State.setV_iter (s : State) (x : Nibble) (v : Byte) : (s.setV x v).iter = s.iter := rfl
@[simp] theorem State.setV_events (s : State) (x : Nibble) (v : Byte) : (s.setV x v).events = s.events := rfl

/-! ### `setI` -/

@[simp] theorem State.setI_regs (s : State) (v : Word) : (s.setI v).regs = s.regs := rfl
@[simp] theorem State.setI_I (s : State) (v : Word) : (s.setI v).I = v := rfl
@[simp] theorem State.setI_pc (s : State) (v : Word) : (s.setI v).pc = s.pc := rfl
@[simp] theorem State.setI_stack (s : State) (v : Word) : (s.setI v).stack = s.stack := rfl
@[simp] theorem State.setI_mem (s : State) (v : Word) : (s.setI v).mem = s.mem := rfl
@[simp] theorem State.setI_dt (s : State) (v : Word) : (s.setI v).dt = s.dt := rfl
@[simp] theorem State.setI_dtT (s : State) (v : Word) : (s.setI v).dtT = s.dtT := rfl
@[simp] theorem State.setI_st (s : State) (v : Word) : (s.setI v).st = s.st := rfl
@[simp] theorem State.setI_stT (s : State) (v : Word) : (s.setI v).stT = s.stT := rfl
@[simp] theorem State.setI_stArmed (s : State) (v : Word) : (s.setI v).stArmed = s.stArmed := rfl
@[simp] theorem State.setI_fb (s : State) (v : Word) : (s.setI v).fb = s.fb := rfl
@[simp] theorem State.setI_status (s : State) (v : Word) : (s.setI v).status = s.status := rfl
@[simp] theorem State.setI_cfg (s : State) (v : Word) : (s.setI v).cfg = s.cfg := rfl
@[simp] theorem State.setI_now (s : State) (v : Word) : (s.setI v).now = s.now := rfl
@[simp] theorem State.setI_inputs (s : State) (v : Word) : (s.setI v).inputs = s.inputs := rfl
@[simp] theorem State.setI_iter (s : State) (v : Word) : (s.setI v).iter = s.iter := rfl
@[simp] theorem State.setI_events (s : State) (v : Word) : (s.setI v).events = s.events := rfl

/-! ### `setPc` -/

@[simp] theorem State.setPc_regs (s : State) (p : Word) : (s.setPc p).regs = s.regs := rfl
@[simp] theorem State.setPc_I (s : State) (p : Word) : (s.setPc p).I = s.I := rfl
@[simp] theorem State.setPc_pc (s : State) (p : Word) : (s.setPc p).pc = p := rfl
@[simp] theorem State.setPc_stack (s : State) (p : Word) : (s.setPc p).stack = s.stack := rfl
@[simp] theorem State.setPc_mem (s : State) (p : Word) : (s.setPc p).mem = s.mem := rfl
@[simp] theorem State.setPc_dt (s : State) (p : Word) : (s.setPc p).dt = s.dt := rfl
@[simp] theorem State.setPc_dtT (s : State) (p : Word) : (s.setPc p).dtT = s.dtT := rfl
@[simp] theorem State.setPc_st (s : State) (p : Word) : (s.setPc p).st = s.st := rfl
@[simp] theorem State.setPc_stT (s : State) (p : Word) : (s.setPc p).stT = s.stT := rfl
@[simp] theorem State.setPc_stArmed (s : State) (p : Word) : (s.setPc p).stArmed = s.stArmed := rfl
@[simp] theorem State.setPc_fb (s : State) (p : Word) : (s.setPc p).fb = s.fb := rfl
@[simp] theorem State.setPc_status (s : State) (p : Word) : (s.setPc p).status = s.status := rfl
@[simp] theorem State.setPc_cfg (s : State) (p : Word) : (s.setPc p).cfg = s.cfg := rfl
@[simp] theorem State.setPc_now (s : State) (p : Word) : (s.setPc p).now = s.now := rfl
@[simp] theorem State.setPc_inputs (s : State) (p : Word) : (s.setPc p).inputs = s.inputs := rfl
@[simp] theorem State.setPc_iter (s : State) (p : Word) : (s.setPc p).iter = s.iter := rfl
@[simp] theorem State.setPc_events (s : State) (p : Word) : (s.setPc p).events = s.events := rfl

/-! ### `adv` -/

@[simp] theorem State.adv_regs (s : State) (n : Nat) : (s.adv n).regs = s.regs := rfl
@[simp] theorem State.adv_I (s : State) (n : Nat) : (s.adv n).I = s.I := rfl
@[simp] theorem State.adv_pc (s : State) (n : Nat) : (s.adv n).pc = s.pc + BitVec.ofNat 16 n := rfl
@[simp] theorem State.adv_stack (s : State) (n : Nat) : (s.adv n).stack = s.stack := rfl
@[simp] theorem State.adv_mem (s : State) (n : Nat) : (s.adv n).mem = s.mem := rfl
@[simp] theorem State.adv_dt (s : State) (n : Nat) : (s.adv n).dt = s.dt := rfl
@[simp] theorem State.adv_dtT (s : State) (n : Nat) : (s.adv n).dtT = s.dtT := rfl
@[simp] theorem State.adv_st (s : State) (n : Nat) : (s.adv n).st = s.st := rfl
@[simp] theorem State.adv_stT (s : State) (n : Nat) : (s.adv n).stT = s.stT := rfl
@[simp] theorem State.adv_stArmed (s : State) (n : Nat) : (s.adv n).stArmed = s.stArmed := rfl
@[simp] theorem State.adv_fb (s : State) (n : Nat) : (s.adv n).fb = s.fb := rfl
@[simp] theorem State.adv_status (s : State) (n : Nat) : (s.adv n).status = s.status := rfl
@[simp] theorem State.adv_cfg (s : State) (n : Nat) : (s.adv n).cfg = s.cfg := rfl
@[simp] theorem State.adv_now (s : State) (n : Nat) : (s.adv n).now = s.now := rfl
@[simp] theorem State.adv_inputs (s : State) (n : Nat) : (s.adv n).inputs = s.inputs := rfl
@[simp] theorem State.adv_iter (s : State) (n : Nat) : (s.adv n).iter = s.iter := rfl
@[simp] theorem State.adv_events (s : State) (n : Nat) : (s.adv n).events = s.events := rfl

/-! ### `raised` -/

@[simp] theorem State.raised_regs (s : State) (e : Error) : (s.raised e).regs = s.regs := rfl
@[simp] theorem State.raised_I (s : State) (e : Error) : (s.raised e).I = s.I := rfl
@[simp] theorem State.raised_pc (s : State) (e : Error) : (s.raised e).pc = s.pc := rfl
@[simp] theorem State.raised_stack (s : State) (e : Error) : (s.raised e).stack = s.stack := rfl
@[simp] theorem State.raised_mem (s : State) (e : Error) : (s.raised e).mem = s.mem := rfl
@[simp] theorem State.raised_dt (s : State) (e : Error) : (s.raised e).dt = s.dt := rfl
@[simp] theorem State.raised_dtT (s : State) (e : Error) : (s.raised e).dtT = s.dtT := rfl
@[simp] theorem State.raised_st (s : State) (e : Error) : (s.raised e).st = s.st := rfl
@[simp] theorem State.raised_stT (s : State) (e : Error) : (s.raised e).stT = s.stT := rfl
@[simp] theorem State.raised_stArmed (s : State) (e : Error) : (s.raised e).stArmed = s.stArmed := rfl
@[simp] theorem State.raised_fb (s : State) (e : Error) : (s.raised e).fb = s.fb := rfl
@[simp] theorem State.raised_status (s : State) (e : Error) : (s.raised e).status = .faulted e := rfl
@[simp] theorem State.raised_cfg (s : State) (e : Error) : (s.raised e).cfg = s.cfg := rfl
@[simp] theorem State.raised_now (s : State) (e : Error) : (s.raised e).now = s.now := rfl
@[simp] theorem State.raised_inputs (s : State) (e : Error) : (s.raised e).inputs = s.inputs := rfl
@[simp] theorem State.raised_iter (s : State) (e : Error) : (s.raised e).iter = s.iter := rfl
@[simp] theorem State.raised_events (s : State) (e : Error) : (s.raised e).events = s.events := rfl

/-! ### `emit` -/

@[simp] theorem State.emit_regs (s : State) (ev : Event) : (s.emit ev).regs = s.regs := rfl
@[simp] theorem State.emit_I (s : State) (ev : Event) : (s.emit ev).I = s.I := rfl
@[simp] theorem State.emit_pc (s : State) (ev : Event) : (s.emit ev).pc = s.pc := rfl
@[simp] theorem State.emit_stack (s : State) (ev : Event) : (s.emit ev).stack = s.stack := rfl
@[simp] theorem State.emit_mem (s : State) (ev : Event) : (s.emit ev).mem = s.mem := rfl
@[simp] theorem State.emit_dt (s : State) (ev : Event) : (s.emit ev).dt = s.dt := rfl
@[simp] theorem State.emit_dtT (s : State) (ev : Event) : (s.emit ev).dtT = s.dtT := rfl
@[simp] theorem State.emit_st (s : State) (ev : Event) : (s.emit ev).st = s.st := rfl
@[simp] theorem State.emit_stT (s : State) (ev : Event) : (s.emit ev).stT = s.stT := rfl
@[simp] theorem State.emit_stArmed (s : State) (ev : Event) : (s.emit ev).stArmed = s.stArmed := rfl
@[simp] theorem State.emit_fb (s : State) (ev : Event) : (s.emit ev).fb = s.fb := rfl
@[simp] theorem State.emit_status (s : State) (ev : Event) : (s.emit ev).status = s.status := rfl
@[simp] theorem State.emit_cfg (s : State) (ev : Event) : (s.emit ev).cfg = s.cfg := rfl
@[simp] theorem State.emit_now (s : State) (ev : Event) : (s.emit ev).now = s.now := rfl
@[simp] theorem State.emit_inputs (s : State) (ev : Event) : (s.emit ev).inputs = s.inputs := rfl
@[simp] theorem State.emit_iter (s : State) (ev : Event) : (s.emit ev).iter = s.iter := rfl
@[simp] theorem State.emit_events (s : State) (ev : Event) : (s.emit ev).events = s.events ++ [ev] := rfl

/-! ### `endIteration` -/

@[simp] theorem State.endIteration_regs (s : State) : s.endIteration.regs = s.regs := rfl
@[simp] theorem State.endIteration_I (s : State) : s.endIteration.I = s.I := rfl
@[simp] theorem State.endIteration_pc (s : State) : s.endIteration.pc = s.pc := rfl
@[simp] theorem State.endIteration_stack (s : State) : s.endIteration.stack = s.stack := rfl
@[simp] theorem State.endIteration_mem (s : State) : s.endIteration.mem = s.mem := rfl
@[simp] theorem State.endIteration_dt (s : State) : s.endIteration.dt = s.dt := rfl
@[simp] theorem State.endIteration_dtT (s : State) : s.endIteration.dtT = s.dtT := rfl
@[simp] theorem State.endIteration_st (s : State) : s.endIteration.st = s.st := rfl
@[simp] theorem State.endIteration_stT (s : State) : s.endIteration.stT = s.stT := rfl
@[simp] theorem State.endIteration_stArmed (s : State) : s.endIteration.stArmed = s.stArmed := rfl
@[simp] theorem State.endIteration_fb (s : State) : s.endIteration.fb = s.fb := rfl
@[simp] theorem State.endIteration_status (s : State) : s.endIteration.status = s.status := rfl
@[simp] theorem State.endIteration_cfg (s : State) : s.endIteration.cfg = s.cfg := rfl
@[simp] theorem State.endIteration_now (s : State) : s.endIteration.now = s.now := rfl
@[simp] theorem State.endIteration_inputs (s : State) : s.endIteration.inputs = s.inputs.tail := rfl
@[simp] theorem State.endIteration_iter (s : State) : s.endIteration.iter = s.iter + 1 := rfl
@[simp] theorem State.endIteration_events (s : State) : s.endIteration.events = s.events := rfl

/-! ### `skipIf` -/

theorem State.skipIf_eq (s : State) (c : Bool) : s.skipIf c = s.adv (if c then 4 else 2) := by
  cases c <;> rfl

@[simp] theorem State.skipIf_regs (s : State) (c : Bool) : (s.skipIf c).regs = s.regs := by cases c <;> rfl
@[simp] theorem State.skipIf_I (s : State) (c : Bool) : (s.skipIf c).I = s.I := by cases c <;> rfl
@[simp] theorem State.skipIf_pc (s : State) (c : Bool) :
    (s.skipIf c).pc = s.pc + (if c then 4#16 else 2#16) := by cases c <;> rfl
@[simp] theorem State.skipIf_stack (s : State) (c : Bool) : (s.skipIf c).stack = s.stack := by cases c <;> rfl
@[simp] theorem State.skipIf_mem (s : State) (c : Bool) : (s.skipIf c).mem = s.mem := by cases c <;> rfl
@[simp] theorem State.skipIf_dt (s : State) (c : Bool) : (s.skipIf c).dt = s.dt := by cases c <;> rfl
@[simp] theorem State.skipIf_dtT (s : State) (c : Bool) : (s.skipIf c).dtT = s.dtT := by cases c <;> rfl
@[simp] theorem State.skipIf_st (s : State) (c : Bool) : (s.skipIf c).st = s.st := by cases c <;> rfl
@[simp] theorem State.skipIf_stT (s : State) (c : Bool) : (s.skipIf c).stT = s.stT := by cases c <;> rfl
@[simp] theorem State.skipIf_stArmed (s : State) (c : Bool) : (s.skipIf c).stArmed = s.stArmed := by cases c <;> rfl
@[simp] theorem State.skipIf_fb (s : State) (c : Bool) : (s.skipIf c).fb = s.fb := by cases c <;> rfl
@[simp] theorem State.skipIf_status (s : State) (c : Bool) : (s.skipIf c).status = s.status := by cases c <;> rfl
@[simp] theorem State.skipIf_cfg (s : State) (c : Bool) : (s.skipIf c).cfg = s.cfg := by cases c <;> rfl
@[simp] theorem State.skipIf_now (s : State) (c : Bool) : (s.skipIf c).now = s.now := by cases c <;> rfl
@[simp] theorem State.skipIf_inputs (s : State) (c : Bool) : (s.skipIf c).inputs = s.inputs := by cases c <;> rfl
@[simp] theorem State.skipIf_iter (s : State) (c : Bool) : (s.skipIf c).iter = s.iter := by cases c <;> rfl
@[simp] theorem State.skipIf_events (s : State) (c : Bool) : (s.skipIf c).events = s.events := by cases c <;> rfl

/-! ### The register file -/

@[simp] theorem State.getV_setV_same (s : State) (x : Nibble) (v : Byte) : (s.setV x v).getV x = v := by
  simp [State.getV, State.setV]

theorem State.getV_setV_ne (s : State) {x y : Nibble} (v : Byte) (h : y ≠ x) : (s.setV x v).getV y = s.getV y := by
  have h' : x.toNat ≠ y.toNat := fun e => h (BitVec.eq_of_toNat_eq e.symm)
  simp [State.getV, State.setV, h']

theorem State.getV_setV (s : State) (x y : Nibble) (v : Byte) :
    (s.setV x v).getV y = if y = x then v else s.getV y := by
  split
  · next h => subst h; exact State.getV_setV_same ..
  · next h => exact State.getV_setV_ne s v h

@[simp] theorem State.getV_setI (s : State) (v : Word) (r : Nibble) : (s.setI v).getV r = s.getV r := rfl
@[simp] theorem State.getV_setPc (s : State) (p : Word) (r : Nibble) : (s.setPc p).getV r = s.getV r := rfl
@[simp] theorem State.getV_adv (s : State) (n : Nat) (r : Nibble) : (s.adv n).getV r = s.getV r := rfl
@[simp] theorem State.getV_raised (s : State) (e : Error) (r : Nibble) : (s.raised e).getV r = s.getV r := rfl
@[simp] theorem State.getV_emit (s : State) (ev : Event) (r : Nibble) : (s.emit ev).getV r = s.getV r := rfl
@[simp] theorem State.getV_endIteration (s : State) (r : Nibble) : s.endIteration.getV r = s.getV r := rfl
@[simp] theorem State.getV_skipIf (s : State) (c : Bool) (r : Nibble) : (s.skipIf c).getV r = s.getV r := by cases c <;> rfl

end Sys2Proof.Machine
end

