-- ==== Sys2Proof/Laws/Memory.lean ====
section
/-! SUPPORT. The memory's laws: a read after a write, and the canonical form (R36, R37). -/

namespace Sys2Proof.Machine

/-! ### Reading after writing -/

theorem Memory.read_cons_ne (m : Memory) {a b : Nat} (v : Byte) (h : b ≠ a) :
    Memory.read (Memory.cons a v m) b = Memory.read m b := by
  unfold Memory.cons
  split
  · rfl
  · simp [Memory.read, Ne.symm h]

/-- A write leaves every other address as it was. -/
theorem Memory.read_write_ne (m : Memory) {a b : Nat} (v : Byte) (h : b ≠ a) :
    Memory.read (Memory.write m a v) b = Memory.read m b := by
  induction m with
  | nil => exact Memory.read_cons_ne [] v h
  | cons c m ih =>
    obtain ⟨c, w⟩ := c
    simp only [Memory.write]
    split
    · exact Memory.read_cons_ne _ v h
    · split
      · next hc => subst hc; rw [Memory.read_cons_ne _ v h]; simp [Memory.read, Ne.symm h]
      · simp only [Memory.read, ih]

/-- Below the first listed address every byte is the one at creation. -/
theorem Memory.read_below {m : Memory} {lo a : Nat} (hwf : Memory.wfFrom lo m = true) (h : a < lo) :
    Memory.read m a = creationByte a := by
  induction m generalizing lo with
  | nil => rfl
  | cons c m ih =>
    obtain ⟨c, w⟩ := c
    simp only [Memory.wfFrom, Bool.and_eq_true, decide_eq_true_eq] at hwf
    simp only [Memory.read]
    rw [if_neg (by omega)]
    exact ih hwf.2 (by omega)

theorem Memory.read_cons_same {m : Memory} {a lo : Nat} (v : Byte) (hwf : Memory.wfFrom lo m = true) (h : a < lo) :
    Memory.read (Memory.cons a v m) a = v := by
  unfold Memory.cons
  split
  · next hv => rw [Memory.read_below hwf h, hv]
  · simp [Memory.read]

theorem Memory.read_write_same_from {m : Memory} {lo : Nat} (a : Nat) (v : Byte) (hwf : Memory.wfFrom lo m = true) :
    Memory.read (Memory.write m a v) a = v := by
  induction m generalizing lo with
  | nil => exact Memory.read_cons_same (lo := a + 1) v rfl (by omega)
  | cons c m ih =>
    obtain ⟨c, w⟩ := c
    have hm : Memory.wfFrom (c + 1) m = true := by simp_all [Memory.wfFrom]
    simp only [Memory.write]
    split
    · next hlt =>
      refine Memory.read_cons_same (lo := c) v ?_ hlt
      simp_all [Memory.wfFrom]
    · split
      · next hc => subst hc; exact Memory.read_cons_same v hm (by omega)
      · next hc =>
        simp only [Memory.read]
        rw [if_neg (Ne.symm hc)]
        exact ih hm

/-- A read of the byte just written gives the value written. -/
theorem Memory.read_write_same {m : Memory} (a : Nat) (v : Byte) (hwf : Memory.wf m = true) :
    Memory.read (Memory.write m a v) a = v := Memory.read_write_same_from a v hwf

/-! ### The canonical form -/

theorem Memory.wfFrom_mono {m : Memory} {lo lo' : Nat} (h : lo' ≤ lo) (hwf : Memory.wfFrom lo m = true) :
    Memory.wfFrom lo' m = true := by
  cases m with
  | nil => rfl
  | cons c m =>
    simp only [Memory.wfFrom, Bool.and_eq_true, decide_eq_true_eq] at hwf ⊢
    exact ⟨⟨⟨by omega, hwf.1.1.2⟩, hwf.1.2⟩, hwf.2⟩

theorem Memory.wfFrom_cons {m : Memory} {lo a : Nat} (v : Byte) (hlo : lo ≤ a) (ha : a < memSize)
    (hwf : Memory.wfFrom (a + 1) m = true) : Memory.wfFrom lo (Memory.cons a v m) = true := by
  unfold Memory.cons
  split
  · exact Memory.wfFrom_mono (by omega) hwf
  · next hv => simp [Memory.wfFrom, hlo, ha, hv, hwf]

theorem Memory.wfFrom_write {m : Memory} {lo a : Nat} (v : Byte) (hlo : lo ≤ a) (ha : a < memSize)
    (hwf : Memory.wfFrom lo m = true) : Memory.wfFrom lo (Memory.write m a v) = true := by
  induction m generalizing lo with
  | nil => exact Memory.wfFrom_cons v hlo ha rfl
  | cons c m ih =>
    obtain ⟨c, w⟩ := c
    simp only [Memory.wfFrom, Bool.and_eq_true, decide_eq_true_eq] at hwf
    simp only [Memory.write]
    split
    · refine Memory.wfFrom_cons v hlo ha ?_
      simp only [Memory.wfFrom, Bool.and_eq_true, decide_eq_true_eq]
      exact ⟨⟨⟨by omega, hwf.1.1.2⟩, hwf.1.2⟩, hwf.2⟩
    · split
      · next hc => subst hc; exact Memory.wfFrom_cons v hlo ha hwf.2
      · simp only [Memory.wfFrom, Bool.and_eq_true, decide_eq_true_eq]
        exact ⟨hwf.1, ih (by omega) hwf.2⟩

/-- A write below MEM_SIZE keeps the canonical form. -/
theorem Memory.wf_write {m : Memory} {a : Nat} (v : Byte) (ha : a < memSize) (hwf : Memory.wf m = true) :
    Memory.wf (Memory.write m a v) = true := Memory.wfFrom_write v (Nat.zero_le a) ha hwf

/-- The memory at creation has the canonical form. -/
theorem Memory.wf_reset : Memory.wf State.reset.mem = true := rfl

theorem Memory.wf_writeAll {m : Memory} {a : Nat} {bs : List Byte} (h : a + bs.length ≤ memSize)
    (hwf : Memory.wf m = true) : Memory.wf (Memory.writeAll m a bs) = true := by
  induction bs generalizing m a with
  | nil => exact hwf
  | cons b bs ih =>
    simp only [List.length_cons] at h
    exact ih (by omega) (Memory.wf_write b (by omega) hwf)

/-- Writing a list of bytes leaves every address outside it as it was. -/
theorem Memory.read_writeAll_outside (m : Memory) {a b : Nat} {bs : List Byte} (h : b < a ∨ a + bs.length ≤ b) :
    Memory.read (Memory.writeAll m a bs) b = Memory.read m b := by
  induction bs generalizing m a with
  | nil => rfl
  | cons c bs ih =>
    simp only [List.length_cons] at h
    rw [Memory.writeAll, ih _ (by omega), Memory.read_write_ne _ _ (by omega)]

/-- After writing a list of bytes, each address of it reads as its byte. -/
theorem Memory.read_writeAll_inside {m : Memory} {a k : Nat} {bs : List Byte} (hk : k < bs.length)
    (hfit : a + bs.length ≤ memSize) (hwf : Memory.wf m = true) :
    Memory.read (Memory.writeAll m a bs) (a + k) = bs[k] := by
  induction bs generalizing m a k with
  | nil => simp at hk
  | cons c bs ih =>
    simp only [List.length_cons] at hk hfit
    have hw := Memory.wf_write c (show a < memSize by omega) hwf
    cases k with
    | zero =>
      rw [Memory.writeAll, Memory.read_writeAll_outside _ (by omega)]
      exact Memory.read_write_same a c hwf
    | succ k =>
      have := ih (m := Memory.write m a c) (a := a + 1) (k := k) (by omega) (by omega) hw
      simpa [Memory.writeAll, Nat.add_assoc, Nat.add_comm 1 k] using this

end Sys2Proof.Machine
end

