-- ==== Sys2Proof/Laws/Ops.lean ====
section
/-! SUPPORT. One lemma per shared operation: everything it can do. -/

namespace Sys2Proof.Machine

/-! ### Runs and errors -/

/-- A run followed by `f` always answers a next state. -/
theorem Run.andThen_next {r : Run} {f : State → State} {t : State} (h : r.andThen f = .next t) :
    (∃ s, r = .ok s ∧ t = f s) ∨ (∃ e s, r = .raised e s ∧ t = s.raised e) := by
  cases r with
  | ok s => exact .inl ⟨s, rfl, (Host.Outcome.next.inj h).symm⟩
  | raised e s => exact .inr ⟨e, s, rfl, (Host.Outcome.next.inj h).symm⟩

/-! ### The stack (R22, R23) -/

theorem push_ok {v : Word} {s : State} (h : s.sp < stackDepth) :
    push v s = .ok { s with stack := s.stack ++ [v] } := if_neg (Nat.not_le.mpr h)

theorem push_full {v : Word} {s : State} (h : stackDepth ≤ s.sp) : push v s = .error (.stackOverflow v) := if_pos h

theorem push_cases (v : Word) (s : State) :
    (s.sp < stackDepth ∧ push v s = .ok { s with stack := s.stack ++ [v] }) ∨
    (stackDepth ≤ s.sp ∧ push v s = .error (.stackOverflow v)) := by
  rcases Nat.lt_or_ge s.sp stackDepth with h | h
  · exact .inl ⟨h, push_ok h⟩
  · exact .inr ⟨h, push_full h⟩

theorem pop_empty {s : State} (h : s.stack = []) : pop s = .error .stackUnderflow := by simp [pop, h]

theorem pop_concat {s : State} {l : List Word} {v : Word} (h : s.stack = l ++ [v]) :
    pop s = .ok (v, { s with stack := l }) := by simp [pop, h]

theorem pop_cases (s : State) :
    (s.stack = [] ∧ pop s = .error .stackUnderflow) ∨
    (∃ l v, s.stack = l ++ [v] ∧ pop s = .ok (v, { s with stack := l })) := by
  rcases List.eq_nil_or_concat s.stack with h | ⟨l, v, h⟩
  · exact .inl ⟨h, pop_empty h⟩
  · rw [List.concat_eq_append] at h
    exact .inr ⟨l, v, h, pop_concat h⟩

/-! ### Memory accesses (R36, R37, R43) -/

theorem memRead_ok {a : Nat} {s : State} (h : a < memSize) : memRead a s = .ok (Memory.read s.mem a) :=
  if_neg (Nat.not_le.mpr h)

theorem memRead_outside {a : Nat} {s : State} (h : memSize ≤ a) : memRead a s = .error (.outOfMemory a) := if_pos h

theorem memWrite_ok {a : Nat} {v : Byte} {s : State} (h : a < memSize) :
    memWrite a v s = .ok { s with mem := Memory.write s.mem a v } := if_neg (Nat.not_le.mpr h)

theorem memWrite_outside {a : Nat} {v : Byte} {s : State} (h : memSize ≤ a) :
    memWrite a v s = .error (.outOfMemory a) := if_pos h

/-- All `n` bytes exist: they are read in order. -/
theorem readBytes_ok {s : State} {a n : Nat} (h : n = 0 ∨ a + n ≤ memSize) :
    readBytes s a n = .ok ((List.range n).map fun k => Memory.read s.mem (a + k)) := by
  induction n generalizing a with
  | zero => rfl
  | succ n ih =>
    have h' : a + (n + 1) ≤ memSize := by omega
    rw [readBytes, memRead_ok (by omega), ih (a := a + 1) (by omega), List.range_succ_eq_map]
    simp [Nat.add_assoc, Nat.add_comm 1]

/-- Some byte does not exist: the lowest such address is reported. -/
theorem readBytes_outside {s : State} {a n : Nat} (hn : n ≠ 0) (h : memSize < a + n) :
    readBytes s a n = .error (.outOfMemory (max a memSize)) := by
  induction n generalizing a with
  | zero => exact absurd rfl hn
  | succ n ih =>
    rcases Nat.lt_or_ge a memSize with ha | ha
    · rw [readBytes, memRead_ok ha, ih (a := a + 1) (by omega) (by omega)]
      simp only [Except.error.injEq, Error.outOfMemory.injEq]
      omega
    · rw [readBytes, memRead_outside ha, Nat.max_eq_left ha]

/-- All bytes exist: they are written in order, and nothing else changes. -/
theorem storeBytes_ok {a : Nat} {bs : List Byte} {s : State} (h : bs = [] ∨ a + bs.length ≤ memSize) :
    storeBytes a bs s = .ok { s with mem := Memory.writeAll s.mem a bs } := by
  induction bs generalizing a s with
  | nil => rfl
  | cons b bs ih =>
    have h' : a + (bs.length + 1) ≤ memSize := by simpa using h
    rw [storeBytes, memWrite_ok (by omega)]
    exact ih (.inr (by omega))

/-- Some byte does not exist: those below MEM_SIZE are written, and the lowest address out of bounds is reported. -/
theorem storeBytes_outside {a : Nat} {bs : List Byte} {s : State} (hne : bs ≠ []) (h : memSize < a + bs.length) :
    storeBytes a bs s = .raised (.outOfMemory (max a memSize))
      { s with mem := Memory.writeAll s.mem a (bs.take (memSize - a)) } := by
  induction bs generalizing a s with
  | nil => exact absurd rfl hne
  | cons b bs ih =>
    rcases Nat.lt_or_ge a memSize with ha | ha
    · have hb : bs ≠ [] := by rintro rfl; simp at h; omega
      have h' : memSize < a + 1 + bs.length := by simp at h; omega
      have hm : max (a + 1) memSize = max a memSize := by omega
      have ht : memSize - a = (memSize - (a + 1)) + 1 := by omega
      rw [storeBytes, memWrite_ok ha]
      simp only
      rw [ih hb h', hm, ht, List.take_succ_cons, Memory.writeAll]
    · rw [storeBytes, memWrite_outside ha, Nat.max_eq_left ha, Nat.sub_eq_zero_of_le ha]
      rfl

/-- All bytes exist: registers k to k + n - 1 take them, and nothing else changes. -/
theorem loadBytes_ok {a k n : Nat} {s : State} (hk : k + n ≤ 16) (h : n = 0 ∨ a + n ≤ memSize) :
    ∃ t, loadBytes a k n s = .ok t ∧ t = { s with regs := t.regs } ∧
      ∀ r : Nibble, t.getV r =
        if k ≤ r.toNat ∧ r.toNat < k + n then Memory.read s.mem (a + (r.toNat - k)) else s.getV r := by
  induction n generalizing a k s with
  | zero => exact ⟨s, rfl, rfl, fun r => by rw [if_neg (by omega)]⟩
  | succ n ih =>
    have h' : a + (n + 1) ≤ memSize := by omega
    obtain ⟨t, ht, hs, hr⟩ := ih (a := a + 1) (k := k + 1)
      (s := s.setV (BitVec.ofNat 4 k) (Memory.read s.mem a)) (by omega) (by omega)
    refine ⟨t, ?_, hs, fun r => ?_⟩
    · rw [loadBytes, memRead_ok (by omega)]; exact ht
    · have hr16 := r.isLt
      have hkn : (BitVec.ofNat 4 k).toNat = k := by rw [BitVec.toNat_ofNat]; omega
      rw [hr, State.getV_setV]
      by_cases hrk : r = BitVec.ofNat 4 k
      · have : r.toNat = k := by rw [hrk, hkn]
        rw [if_neg (by omega), if_pos hrk, if_pos (by omega), this]; simp
      · have hne : r.toNat ≠ k := fun e => hrk (BitVec.eq_of_toNat_eq (by rw [hkn, e]))
        rw [if_neg hrk]
        by_cases hin : k ≤ r.toNat ∧ r.toNat < k + (n + 1)
        · rw [if_pos hin, if_pos (by omega)]
          rw [show a + 1 + (r.toNat - (k + 1)) = a + (r.toNat - k) by omega]
          rfl
        · rw [if_neg hin, if_neg (by omega)]

/-- Some byte does not exist: the lowest such address is reported, and the registers before it have taken their bytes. -/
theorem loadBytes_outside {a k n : Nat} {s : State} (hk : k + n ≤ 16) (hn : n ≠ 0) (h : memSize < a + n) :
    ∃ t, loadBytes a k n s = .raised (.outOfMemory (max a memSize)) t ∧ t = { s with regs := t.regs } ∧
      ∀ r : Nibble, t.getV r =
        if k ≤ r.toNat ∧ r.toNat < k + n ∧ a + (r.toNat - k) < memSize then Memory.read s.mem (a + (r.toNat - k))
        else s.getV r := by
  induction n generalizing a k s with
  | zero => exact absurd rfl hn
  | succ n ih =>
    rcases Nat.lt_or_ge a memSize with ha | ha
    · obtain ⟨t, ht, hs, hr⟩ := ih (a := a + 1) (k := k + 1)
        (s := s.setV (BitVec.ofNat 4 k) (Memory.read s.mem a)) (by omega) (by omega) (by omega)
      have hm : max (a + 1) memSize = max a memSize := by omega
      rw [hm] at ht
      refine ⟨t, ?_, hs, fun r => ?_⟩
      · rw [loadBytes, memRead_ok ha]; exact ht
      · have hr16 := r.isLt
        have hkn : (BitVec.ofNat 4 k).toNat = k := by rw [BitVec.toNat_ofNat]; omega
        rw [hr, State.getV_setV]
        by_cases hrk : r = BitVec.ofNat 4 k
        · have : r.toNat = k := by rw [hrk, hkn]
          rw [if_neg (by omega), if_pos hrk, if_pos (by omega), this]; simp
        · have hne : r.toNat ≠ k := fun e => hrk (BitVec.eq_of_toNat_eq (by rw [hkn, e]))
          rw [if_neg hrk]
          by_cases hin : k ≤ r.toNat ∧ r.toNat < k + (n + 1) ∧ a + (r.toNat - k) < memSize
          · rw [if_pos hin, if_pos (by omega)]
            rw [show a + 1 + (r.toNat - (k + 1)) = a + (r.toNat - k) by omega]
            rfl
          · rw [if_neg hin, if_neg (by omega)]
    · refine ⟨s, ?_, rfl, fun r => by rw [if_neg (by omega)]⟩
      rw [loadBytes, memRead_outside ha, Nat.max_eq_left ha]

/-! ### The flag and the result (R86) -/

/-- The index of VF. -/
theorem flagReg_eq : flagReg = 15#4 := rfl

/-- Every data register after `WriteFlagged`. -/
theorem State.getV_writeFlagged (s : State) (x : Nibble) (res : Byte) (flag : Bool) (r : Nibble) :
    (s.writeFlagged x res flag).getV r =
      if r = x ∧ (x ≠ 15#4 ∨ s.cfg.vfWriteOrder = .flagFirst) then res
      else if r = 15#4 then flagByte flag else s.getV r := by
  unfold State.writeFlagged
  simp only [flagReg_eq]
  split <;> rename_i hcfg <;> simp only [State.getV_adv, State.getV_setV] <;> simp only [hcfg] <;>
    by_cases h1 : r = x <;> by_cases h2 : r = 15#4 <;> simp_all

/-- A flag as a number. -/
theorem flagByte_toNat (c : Bool) : (flagByte c).toNat = if c then 1 else 0 := by cases c <;> rfl

/-- `WriteFlagged` writes registers and pc, nothing else. -/
theorem State.writeFlagged_eq (s : State) (x : Nibble) (res : Byte) (flag : Bool) :
    s.writeFlagged x res flag =
      { s with regs := (s.writeFlagged x res flag).regs, pc := s.pc + 2#16 } := by
  unfold State.writeFlagged
  split <;> rfl

/-! ### The display call (R98, R99) -/

theorem State.displayCall_ok {s : State} {call : DisplayCall} {ev : Event} (h : s.input.displayOk = true) :
    s.displayCall call ev = (s.emit ev).adv 2 := by simp [State.displayCall, h]

theorem State.displayCall_error {s : State} {call : DisplayCall} {ev : Event} (h : s.input.displayOk = false) :
    s.displayCall call ev = (s.emit ev).raised (.ioError call) := by simp [State.displayCall, h]

/-! ### The timers (R122, R125) -/

theorem State.decayedDelay_toNat (s : State) : s.decayedDelay.toNat = s.dt.toNat - (s.now - s.dtT) := by
  have := s.dt.isLt
  simp only [State.decayedDelay, State.elapsedSince, BitVec.toNat_ofNat]
  omega

theorem beepCheck_due {s : State} (h : s.beepDue = true) :
    beepCheck s = { s.emit .beep with stArmed := false } := if_pos h

theorem beepCheck_notDue {s : State} (h : s.beepDue = false) : beepCheck s = s := by simp [beepCheck, h]

/-- The beep check writes st_armed and the events, nothing else. -/
theorem beepCheck_eq (s : State) :
    beepCheck s = { s with stArmed := (beepCheck s).stArmed, events := (beepCheck s).events } := by
  unfold beepCheck
  split <;> rfl

/-! ### The key test (R100) -/

/-- `KeyDown` raises nothing but KeyOutOfRange, and otherwise changes nothing but the events. -/
theorem keyDown_cases (v : Byte) (s : State) :
    (15 < v.toNat ∧ s.cfg.keyRangePolicy = .fault ∧ keyDown v s = .error (.keyOutOfRange v)) ∨
    (15 < v.toNat ∧ s.cfg.keyRangePolicy = .notPressed ∧ keyDown v s = .ok (false, s)) ∨
    ((v.toNat ≤ 15 ∨ s.cfg.keyRangePolicy = .maskLowNibble) ∧
      keyDown v s = .ok (s.input.keysDown.getLsbD (v.toNat % 16), s.emit (.isKeyDown (v.setWidth 4)))) := by
  unfold keyDown queryKey
  by_cases h : 15 < v.toNat
  · rw [if_pos h]
    cases hp : s.cfg.keyRangePolicy
    · exact .inl ⟨h, rfl, rfl⟩
    · exact .inr (.inl ⟨h, rfl, rfl⟩)
    · exact .inr (.inr ⟨.inr rfl, by simp⟩)
  · exact .inr (.inr ⟨.inl (by omega), by rw [if_neg h]; simp⟩)

/-! ### The iteration (R64) -/

theorem endAnswer_next {a : Answer} {t : State} (h : endAnswer a = .next t) :
    ∃ u, a = .next u ∧ t = u.endIteration := by
  cases a with
  | next u => exact ⟨u, rfl, (Host.Outcome.next.inj h).symm⟩
  | fault r => cases r
  | refused r => cases h

/-- Everything a step can do: stay (terminal), quit, take the error of a fetch or decode, or execute. -/
theorem step_cases {s t : State} (h : step s = .next t) :
    (s.status ≠ .running ∧ t = s) ∨
    (s.status = .running ∧ s.input.quit = true ∧ t = s.quitted.endIteration) ∨
    (∃ e, s.status = .running ∧ s.input.quit = false ∧ fetchDecode (beforeFetch s) = .error e ∧
      t = ((beforeFetch s).raised e).endIteration) ∨
    (∃ i u, s.status = .running ∧ s.input.quit = false ∧ fetchDecode (beforeFetch s) = .ok i ∧
      exec i (beforeFetch s) = .next u ∧ t = u.endIteration) := by
  unfold step iteration at h
  cases hs : s.status with
  | running =>
    simp only [hs] at h
    cases hq : s.input.quit with
    | true =>
      rw [hq, if_pos rfl] at h
      exact .inr (.inl ⟨rfl, rfl, (Host.Outcome.next.inj h).symm⟩)
    | false =>
      rw [hq, if_neg (by decide)] at h
      obtain ⟨u, hu, rfl⟩ := endAnswer_next h
      unfold fetchExecute at hu
      cases hf : fetchDecode (beforeFetch s) with
      | error e =>
        simp only [hf] at hu
        exact .inr (.inr (.inl ⟨e, rfl, rfl, rfl, by rw [← Host.Outcome.next.inj hu]⟩))
      | ok i =>
        simp only [hf] at hu
        exact .inr (.inr (.inr ⟨i, u, rfl, rfl, rfl, hu, rfl⟩))
  | quit =>
    simp only [hs] at h
    exact .inl ⟨by simp, (Host.Outcome.next.inj h).symm⟩
  | faulted e =>
    simp only [hs] at h
    exact .inl ⟨by simp, (Host.Outcome.next.inj h).symm⟩

end Sys2Proof.Machine
end

