-- ==== Sys2Proof/Laws/Display.lean ====
section
/-! SUPPORT. What plotting does to the grid: the loop of R99 as one exclusive-or of a list of distinct pixels. -/

namespace Sys2Proof.Machine

/-! ### One pixel -/

theorem Grid.lit_outside (g : Grid) {col row : Nat} (h : ¬ (col < 64 ∧ row < 32)) : Grid.lit g col row = false :=
  dif_neg h

theorem Grid.lit_blank (col row : Nat) : Grid.lit Grid.blank col row = false := by
  unfold Grid.lit
  split <;> simp [Grid.blank]

theorem Grid.lit_flip_ne (g : Grid) {col row c r : Nat} (h : (c, r) ≠ (col, row)) :
    Grid.lit (Grid.flip g col row) c r = Grid.lit g c r := by
  unfold Grid.flip
  split
  · next hin =>
    unfold Grid.lit
    split
    · next hcr =>
      by_cases hc : col = c
      · have hr : row ≠ r := fun e => h (by rw [hc, e])
        subst hc
        simp [hr]
      · simp [Vector.getElem_set_ne _ _ hc]
    · rfl
  · rfl

theorem Grid.lit_flip_same (g : Grid) {col row : Nat} (hc : col < 64) (hr : row < 32) :
    Grid.lit (Grid.flip g col row) col row = !Grid.lit g col row := by
  simp [Grid.flip, Grid.lit, hc, hr]

/-- Two grids with the same pixels are equal. -/
theorem Grid.ext_lit {g g' : Grid} (h : ∀ col row, col < 64 → row < 32 → Grid.lit g col row = Grid.lit g' col row) :
    g = g' := by
  apply Vector.ext
  intro c hc
  apply Vector.ext
  intro r hr
  have := h c r hc hr
  simpa [Grid.lit, hc, hr] using this

/-! ### A list of pixels -/

/-- Flip the pixels of a list in order, noting whether any was lit. -/
def flipAll (ps : List (Nat × Nat)) (p : Grid × Bool) : Grid × Bool :=
  ps.foldl (fun p q => (Grid.flip p.1 q.1 q.2, p.2 || Grid.lit p.1 q.1 q.2)) p

theorem flipAll_append (ps qs : List (Nat × Nat)) (p : Grid × Bool) :
    flipAll (ps ++ qs) p = flipAll qs (flipAll ps p) := List.foldl_append ..

theorem lit_flipAll_notMem {ps : List (Nat × Nat)} {p : Grid × Bool} {c r : Nat} (h : (c, r) ∉ ps) :
    Grid.lit (flipAll ps p).1 c r = Grid.lit p.1 c r := by
  induction ps generalizing p with
  | nil => rfl
  | cons q ps ih =>
    simp only [List.mem_cons, not_or] at h
    exact (ih h.2).trans (Grid.lit_flip_ne _ h.1)

theorem lit_flipAll_mem {ps : List (Nat × Nat)} {p : Grid × Bool} {c r : Nat} (hd : ps.Nodup) (h : (c, r) ∈ ps)
    (hc : c < 64) (hr : r < 32) : Grid.lit (flipAll ps p).1 c r = !Grid.lit p.1 c r := by
  induction ps generalizing p with
  | nil => cases h
  | cons q ps ih =>
    rw [List.nodup_cons] at hd
    rcases List.mem_cons.mp h with rfl | h
    · exact (lit_flipAll_notMem hd.1).trans (Grid.lit_flip_same _ hc hr)
    · refine (ih hd.2 h).trans (congrArg _ (Grid.lit_flip_ne _ ?_))
      intro e
      have e' : (c, r) = q := e
      exact hd.1 (e' ▸ h)

/-- A collision is noted exactly when some pixel of the list was lit before. -/
theorem flipAll_collides {ps : List (Nat × Nat)} {p : Grid × Bool} (hd : ps.Nodup) :
    (flipAll ps p).2 = true ↔ p.2 = true ∨ ∃ q ∈ ps, Grid.lit p.1 q.1 q.2 = true := by
  induction ps generalizing p with
  | nil => simp [flipAll]
  | cons q ps ih =>
    rw [List.nodup_cons] at hd
    have h := ih (p := (Grid.flip p.1 q.1 q.2, p.2 || Grid.lit p.1 q.1 q.2)) hd.2
    refine h.trans ?_
    simp only [Bool.or_eq_true, List.mem_cons, exists_eq_or_imp, or_assoc]
    refine or_congr_right (or_congr_right (exists_congr fun z => and_congr_right fun hz => ?_))
    rw [Grid.lit_flip_ne]
    intro e
    have e' : z = q := e
    exact hd.1 (e' ▸ hz)

/-! ### The pixels of a sprite -/

/-- Where the set bits of sprite row r land, left to right. -/
def rowPixels (edge : DrawEdge) (x0 y0 r : Nat) (row : Byte) : List (Nat × Nat) :=
  ((List.range 8).filter (spriteBit row)).filterMap fun c => landing edge x0 y0 c r

/-- Where the set bits of the rows from r on land. -/
def spritePixels (edge : DrawEdge) (x0 y0 : Nat) : Nat → List Byte → List (Nat × Nat)
  | _, [] => []
  | r, row :: rows => rowPixels edge x0 y0 r row ++ spritePixels edge x0 y0 (r + 1) rows

theorem plotRow_eq (edge : DrawEdge) (x0 y0 r : Nat) (row : Byte) (p : Grid × Bool) :
    plotRow edge x0 y0 r row p = flipAll (rowPixels edge x0 y0 r row) p := by
  unfold plotRow rowPixels
  generalize List.range 8 = cs
  induction cs generalizing p with
  | nil => rfl
  | cons c cs ih =>
    rw [List.foldl_cons, ih, plotPixel]
    by_cases hb : spriteBit row c = true
    · rw [if_pos hb, List.filter_cons_of_pos hb, List.filterMap_cons]
      cases landing edge x0 y0 c r <;> rfl
    · rw [if_neg hb, List.filter_cons_of_neg hb]

theorem plotRows_eq (edge : DrawEdge) (x0 y0 r : Nat) (rows : List Byte) (p : Grid × Bool) :
    plotRows edge x0 y0 r rows p = flipAll (spritePixels edge x0 y0 r rows) p := by
  induction rows generalizing r p with
  | nil => rfl
  | cons row rows ih => rw [plotRows, ih, plotRow_eq, spritePixels, flipAll_append]

theorem landing_inGrid {edge : DrawEdge} {x0 y0 c r : Nat} {q : Nat × Nat} (h : landing edge x0 y0 c r = some q) :
    q.1 < 64 ∧ q.2 < 32 := by
  cases edge with
  | clip =>
    simp only [landing] at h
    split at h
    · next hin => cases h; exact hin
    · cases h
  | wrap =>
    simp only [landing, displayW, displayH, Option.some.injEq] at h
    subst h
    exact ⟨Nat.mod_lt _ (by decide), Nat.mod_lt _ (by decide)⟩

/-- No two pixels of a sprite land on one pixel of the grid. -/
theorem landing_injective {edge : DrawEdge} {x0 y0 c r c' r' : Nat} {q : Nat × Nat} (hc : c < 8) (hc' : c' < 8)
    (hr : r < 32) (hr' : r' < 32) (h : landing edge x0 y0 c r = some q) (h' : landing edge x0 y0 c' r' = some q) :
    c = c' ∧ r = r' := by
  cases edge with
  | clip =>
    simp only [landing] at h h'
    split at h <;> split at h' <;> simp only [Option.some.injEq, reduceCtorEq] at h h'
    subst h
    simp only [Prod.mk.injEq] at h'
    omega
  | wrap =>
    simp only [landing, displayW, displayH, Option.some.injEq] at h h'
    subst h
    simp only [Prod.mk.injEq] at h'
    omega

theorem mem_rowPixels {edge : DrawEdge} {x0 y0 r : Nat} {row : Byte} {q : Nat × Nat} :
    q ∈ rowPixels edge x0 y0 r row ↔ ∃ c, c < 8 ∧ spriteBit row c = true ∧ landing edge x0 y0 c r = some q := by
  simp [rowPixels, List.mem_filterMap, and_assoc]

theorem mem_spritePixels {edge : DrawEdge} {x0 y0 r : Nat} {rows : List Byte} {q : Nat × Nat} :
    q ∈ spritePixels edge x0 y0 r rows ↔
      ∃ k c, ∃ h : k < rows.length, c < 8 ∧ spriteBit rows[k] c = true ∧ landing edge x0 y0 c (r + k) = some q := by
  induction rows generalizing r with
  | nil => simp [spritePixels]
  | cons row rows ih =>
    rw [spritePixels, List.mem_append, mem_rowPixels, ih]
    constructor
    · rintro (⟨c, hc, hb, hl⟩ | ⟨k, c, hk, hc, hb, hl⟩)
      · exact ⟨0, c, by simp, hc, hb, hl⟩
      · exact ⟨k + 1, c, by simpa using hk, hc, by simpa using hb, by rw [← hl]; congr 1; omega⟩
    · rintro ⟨k, c, hk, hc, hb, hl⟩
      cases k with
      | zero => exact .inl ⟨c, hc, hb, hl⟩
      | succ k =>
        exact .inr ⟨k, c, by simpa using hk, hc, by simpa using hb, by rw [← hl]; congr 1; omega⟩

theorem rowPixels_nodup (edge : DrawEdge) (x0 y0 r : Nat) (row : Byte) (hr : r < 32) :
    (rowPixels edge x0 y0 r row).Nodup := by
  unfold rowPixels
  have hrange : ∀ c ∈ (List.range 8).filter (spriteBit row), c < 8 := by
    intro c hc
    exact List.mem_range.mp (List.mem_of_mem_filter hc)
  have hnd : ((List.range 8).filter (spriteBit row)).Nodup := List.nodup_range.filter _
  generalize (List.range 8).filter (spriteBit row) = cs at hrange hnd
  induction cs with
  | nil => exact List.nodup_nil
  | cons c cs ih =>
    rw [List.nodup_cons] at hnd
    have hrest := ih (fun d hd => hrange d (List.mem_cons_of_mem _ hd)) hnd.2
    rw [List.filterMap_cons]
    split
    · exact hrest
    · next q hq =>
      refine List.nodup_cons.mpr ⟨fun hmem => ?_, hrest⟩
      obtain ⟨d, hd, hl⟩ := List.mem_filterMap.mp hmem
      have := landing_injective (hrange c (by simp)) (hrange d (by simp [hd])) hr hr hq hl
      rw [this.1] at hnd
      exact hnd.1 hd

theorem spritePixels_nodup {edge : DrawEdge} {x0 y0 r : Nat} {rows : List Byte} (h : r + rows.length ≤ 32) :
    (spritePixels edge x0 y0 r rows).Nodup := by
  induction rows generalizing r with
  | nil => exact List.nodup_nil
  | cons row rows ih =>
    simp only [List.length_cons] at h
    rw [spritePixels, List.nodup_append]
    refine ⟨rowPixels_nodup edge x0 y0 r row (by omega), ih (by omega), fun p hp q hq e => ?_⟩
    subst e
    obtain ⟨c, hc, -, hl⟩ := mem_rowPixels.mp hp
    obtain ⟨k, d, hk, hd, -, hl'⟩ := mem_spritePixels.mp hq
    have := landing_injective hc hd (by omega) (by omega) hl hl'
    omega

/-- Plotting a sprite flips its pixels and notes a collision. -/
theorem plotSprite_eq (edge : DrawEdge) (x0 y0 : Nat) (rows : List Byte) (g : Grid) :
    plotSprite edge x0 y0 rows g = flipAll (spritePixels edge x0 y0 0 rows) (g, false) := plotRows_eq ..

end Sys2Proof.Machine
end

