-- ==== Sys2Proof/Laws/Exec.lean ====
section
/-! SUPPORT. Everything the meanings with more than one outcome can do, and what one iteration does around them. -/

namespace Sys2Proof.Machine

/-! ### Accesses to several bytes (R43) -/

/-- A byte store changes memory alone, and only in the bytes it names, whether it ends or raises; it keeps the canonical
form. -/
theorem storeBytes_effect (a : Nat) (bs : List Byte) (s : State) :
    ∃ t : State, t = { s with mem := t.mem } ∧ SameMemoryBut a bs.length s t ∧
      (Memory.wf s.mem = true → Memory.wf t.mem = true) ∧
      (storeBytes a bs s = .ok t ∨
        (memSize < a + bs.length ∧ storeBytes a bs s = .raised (.outOfMemory (max a memSize)) t)) := by
  by_cases h : bs = [] ∨ a + bs.length ≤ memSize
  · refine ⟨_, rfl, fun b hb => Memory.read_writeAll_outside _ hb, fun hw => ?_, .inl (storeBytes_ok h)⟩
    rcases h with rfl | h
    · exact hw
    · exact Memory.wf_writeAll h hw
  · simp only [not_or, not_le] at h
    refine ⟨_, rfl, fun b hb => Memory.read_writeAll_outside _ (by rw [List.length_take]; omega), fun hw => ?_,
      .inr ⟨h.2, storeBytes_outside h.1 h.2⟩⟩
    by_cases hm : memSize ≤ a
    · rw [Nat.sub_eq_zero_of_le hm]; exact hw
    · exact Memory.wf_writeAll (by rw [List.length_take]; omega) hw

/-- A register load changes registers alone, and only the first `n`, whether it ends or raises. -/
theorem loadBytes_effect (a n : Nat) (s : State) (hn : n ≤ 16) :
    ∃ t : State, t = { s with regs := t.regs } ∧ (∀ r : Nibble, n ≤ r.toNat → t.getV r = s.getV r) ∧
      (loadBytes a 0 n s = .ok t ∨
        (memSize < a + n ∧ loadBytes a 0 n s = .raised (.outOfMemory (max a memSize)) t)) := by
  by_cases h : n = 0 ∨ a + n ≤ memSize
  · obtain ⟨t, h1, h2, h3⟩ := loadBytes_ok (s := s) (a := a) (k := 0) (n := n) (by omega) h
    exact ⟨t, h2, fun r hr => by rw [h3, if_neg (by omega)], .inl h1⟩
  · obtain ⟨t, h1, h2, h3⟩ := loadBytes_outside (s := s) (a := a) (k := 0) (n := n) (by omega) (by omega) (by omega)
    exact ⟨t, h2, fun r hr => by rw [h3, if_neg (by omega)], .inr ⟨by omega, h1⟩⟩

/-- Reading sprite bytes gives them all or reports the lowest address out of bounds. -/
theorem readBytes_cases (s : State) (a n : Nat) :
    (∃ rows, rows.length = n ∧ readBytes s a n = .ok rows) ∨
    (memSize < a + n ∧ readBytes s a n = .error (.outOfMemory (max a memSize))) := by
  by_cases h : n = 0 ∨ a + n ≤ memSize
  · exact .inl ⟨_, by simp, readBytes_ok h⟩
  · exact .inr ⟨by omega, readBytes_outside (by omega) (by omega)⟩

/-- After a block move only I may differ. -/
theorem State.afterBlockMove_eq (s : State) (x : Nibble) :
    s.afterBlockMove x = { s with I := (s.afterBlockMove x).I } := by
  unfold State.afterBlockMove
  split <;> rfl

theorem State.afterBlockMove_unchanged {s : State} {x : Nibble} (h : s.cfg.iAfterBlockMove = .unchanged) :
    s.afterBlockMove x = s := by simp [State.afterBlockMove, h]

/-- A skip in one record (R18). -/
theorem State.skipIf_record (s : State) (c : Bool) :
    s.skipIf c = { s with pc := s.pc + if c then 4#16 else 2#16 } := by cases c <;> rfl

/-- A result changes V[x] and pc alone (R79, R92). -/
theorem State.writeResult_ne (s : State) {x r : Nibble} (v : Byte) (h : r ≠ x) :
    (s.writeResult x v).getV r = s.getV r := State.getV_setV_ne _ _ h

/-! ### The meanings with more than one outcome -/

theorem exec_call_cases {nnn : Addr} {s t : State} (h : exec (.call nnn) s = .next t) :
    (s.sp < stackDepth ∧ t = { s with stack := s.stack ++ [s.callValue], pc := zext16 nnn }) ∨
    (stackDepth ≤ s.sp ∧ t = s.raised (.stackOverflow s.callValue)) := by
  simp only [exec, execCall] at h
  rcases push_cases s.callValue s with ⟨hs, hp⟩ | ⟨hs, hp⟩ <;> rw [hp] at h <;> cases h
  · exact .inl ⟨hs, rfl⟩
  · exact .inr ⟨hs, rfl⟩

theorem exec_ret_cases {s t : State} (h : exec .ret s = .next t) :
    (∃ l v, s.stack = l ++ [v] ∧ t = { s with stack := l, pc := returnTarget s.cfg.callPushValue v }) ∨
    (s.stack = [] ∧ t = s.raised .stackUnderflow) := by
  simp only [exec, execRet] at h
  rcases pop_cases s with ⟨hs, hp⟩ | ⟨l, v, hs, hp⟩ <;> rw [hp] at h <;> cases h
  · exact .inr ⟨hs, rfl⟩
  · exact .inl ⟨l, v, hs, rfl⟩

theorem exec_cls_cases {s t : State} (h : exec .cls s = .next t) :
    (s.input.displayOk = true ∧
      t = { s with fb := Grid.blank, events := s.events ++ [.clear], pc := s.pc + 2#16 }) ∨
    (s.input.displayOk = false ∧
      t = { s with fb := Grid.blank, events := s.events ++ [.clear], status := .faulted (.ioError .clear) }) := by
  simp only [exec, execCls] at h
  cases hd : s.input.displayOk with
  | true => rw [State.displayCall_ok (by exact hd)] at h; cases h; exact .inl ⟨rfl, rfl⟩
  | false => rw [State.displayCall_error (by exact hd)] at h; cases h; exact .inr ⟨rfl, rfl⟩

/-- DRW: the two outcomes of a drawn sprite, and a sprite byte out of bounds. -/
theorem exec_drw_cases {x y n : Nibble} {s t : State} (h : exec (.drw x y n) s = .next t) :
    (∃ g c, s.input.displayOk = true ∧
      t = { s.setV 15#4 (flagByte c) with
            fb := g, events := s.events ++ [.present g], pc := s.pc + 2#16 }) ∨
    (∃ g c, s.input.displayOk = false ∧
      t = { s.setV 15#4 (flagByte c) with
            fb := g, events := s.events ++ [.present g], status := .faulted (.ioError .present) }) ∨
    (memSize < s.I.toNat + n.toNat ∧
      t = (s.setV 15#4 0#8).raised (.outOfMemory (max s.I.toNat memSize))) := by
  simp only [exec, execDrw] at h
  rcases readBytes_cases (s.setV flagReg 0#8) ((s.setV flagReg 0#8).addr 0) n.toNat with ⟨rows, -, hr⟩ | ⟨hm, hr⟩
  · rw [hr] at h
    simp only at h
    generalize plotSprite s.cfg.drawEdge _ _ rows _ = d at h
    cases hd : s.input.displayOk with
    | true =>
      rw [State.displayCall_ok (by exact hd)] at h
      cases h
      refine .inl ⟨d.1, d.2, rfl, ?_⟩
      simp [State.setV, State.emit, State.adv, State.setPc, flagReg]
    | false =>
      rw [State.displayCall_error (by exact hd)] at h
      cases h
      refine .inr (.inl ⟨d.1, d.2, rfl, ?_⟩)
      simp [State.setV, State.emit, State.raised, flagReg]
  · rw [hr] at h
    cases h
    exact .inr (.inr ⟨hm, rfl⟩)

/-- SKP and SKNP: the event is recorded or not, and pc skips or not; or the key value is out of range. -/
theorem exec_skp_cases {x : Nibble} {s t : State} (h : exec (.skp x) s = .next t) :
    (∃ (evs : List Event) (c : Bool), t = { s with events := s.events ++ evs, pc := s.pc + if c then 4#16 else 2#16 }) ∨
    (15 < (s.getV x).toNat ∧ s.cfg.keyRangePolicy = .fault ∧ t = s.raised (.keyOutOfRange (s.getV x))) := by
  simp only [exec, execSkp] at h
  rcases keyDown_cases (s.getV x) s with ⟨h1, h2, hk⟩ | ⟨-, -, hk⟩ | ⟨-, hk⟩ <;> rw [hk] at h <;> cases h
  · exact .inr ⟨h1, h2, rfl⟩
  · exact .inl ⟨[], false, by simp [State.skipIf, State.adv, State.setPc]⟩
  · refine .inl ⟨[.isKeyDown ((s.getV x).setWidth 4)], s.input.keysDown.getLsbD ((s.getV x).toNat % 16), ?_⟩
    cases s.input.keysDown.getLsbD ((s.getV x).toNat % 16) <;> rfl

theorem exec_sknp_cases {x : Nibble} {s t : State} (h : exec (.sknp x) s = .next t) :
    (∃ (evs : List Event) (c : Bool), t = { s with events := s.events ++ evs, pc := s.pc + if c then 4#16 else 2#16 }) ∨
    (15 < (s.getV x).toNat ∧ s.cfg.keyRangePolicy = .fault ∧ t = s.raised (.keyOutOfRange (s.getV x))) := by
  simp only [exec, execSknp] at h
  rcases keyDown_cases (s.getV x) s with ⟨h1, h2, hk⟩ | ⟨-, -, hk⟩ | ⟨-, hk⟩ <;> rw [hk] at h <;> cases h
  · exact .inr ⟨h1, h2, rfl⟩
  · exact .inl ⟨[], true, by simp [State.skipIf, State.adv, State.setPc]⟩
  · refine .inl ⟨[.isKeyDown ((s.getV x).setWidth 4)], !s.input.keysDown.getLsbD ((s.getV x).toNat % 16), ?_⟩
    cases s.input.keysDown.getLsbD ((s.getV x).toNat % 16) <;> rfl

theorem exec_ldVxK_cases {x : Nibble} {s t : State} (h : exec (.ldVxK x) s = .next t) :
    (s.input.firstKey = none ∧ t = s.emit .firstPressedKey) ∨
    (∃ k, s.input.firstKey = some k ∧ t = (s.emit .firstPressedKey).writeResult x (k.setWidth 8)) := by
  simp only [exec, execLdVxK] at h
  cases hk : s.input.firstKey with
  | none => rw [hk] at h; cases h; exact .inl ⟨rfl, rfl⟩
  | some k => rw [hk] at h; cases h; exact .inr ⟨k, rfl, rfl⟩

theorem exec_storeRegs_cases {x : Nibble} {s t : State} (h : exec (.storeRegs x) s = .next t) :
    ∃ u : State, u = { s with mem := u.mem } ∧ SameMemoryBut (s.addr 0) (x.toNat + 1) s u ∧
      (Memory.wf s.mem = true → Memory.wf u.mem = true) ∧
      (t = (u.afterBlockMove x).adv 2 ∨
        (memSize < s.addr 0 + (x.toNat + 1) ∧ t = u.raised (.outOfMemory (max (s.addr 0) memSize)))) := by
  have hl : (s.regsUpTo x).length = x.toNat + 1 := by simp [State.regsUpTo]
  obtain ⟨u, hu, hm, hw, hr⟩ := storeBytes_effect (s.addr 0) (s.regsUpTo x) s
  rw [hl] at hm hr
  refine ⟨u, hu, hm, hw, ?_⟩
  simp only [exec, execStoreRegs] at h
  rcases hr with hr | ⟨hb, hr⟩ <;> rw [hr] at h <;> cases h
  · exact .inl rfl
  · exact .inr ⟨hb, rfl⟩

theorem exec_loadRegs_cases {x : Nibble} {s t : State} (h : exec (.loadRegs x) s = .next t) :
    ∃ u : State, u = { s with regs := u.regs } ∧ (∀ r : Nibble, x < r → u.getV r = s.getV r) ∧
      (t = (u.afterBlockMove x).adv 2 ∨
        (memSize < s.addr 0 + (x.toNat + 1) ∧ t = u.raised (.outOfMemory (max (s.addr 0) memSize)))) := by
  have hx := x.isLt
  obtain ⟨u, hu, hm, hr⟩ := loadBytes_effect (s.addr 0) (x.toNat + 1) s (by omega)
  refine ⟨u, hu, fun r hr => hm r (BitVec.lt_def.mp hr), ?_⟩
  simp only [exec, execLoadRegs] at h
  rcases hr with hr | ⟨hb, hr⟩ <;> rw [hr] at h <;> cases h
  · exact .inl rfl
  · exact .inr ⟨hb, rfl⟩

theorem exec_ldB_cases {x : Nibble} {s t : State} (h : exec (.ldB x) s = .next t) :
    ∃ u : State, u = { s with mem := u.mem } ∧ SameMemoryBut (s.addr 0) 3 s u ∧
      (Memory.wf s.mem = true → Memory.wf u.mem = true) ∧
      (t = u.adv 2 ∨ (memSize < s.addr 0 + 3 ∧ t = u.raised (.outOfMemory (max (s.addr 0) memSize)))) := by
  obtain ⟨u, hu, hm, hw, hr⟩ := storeBytes_effect (s.addr 0) (bcdDigits (s.getV x)) s
  refine ⟨u, hu, hm, hw, ?_⟩
  simp only [exec, execLdB] at h
  rcases hr with hr | ⟨hb, hr⟩ <;> rw [hr] at h <;> cases h
  · exact .inl rfl
  · exact .inr ⟨hb, rfl⟩

/-! ### The iteration around a meaning (R64) -/

/-- The beep check in one record. -/
theorem beepCheck_record (s : State) :
    beepCheck s =
      { s with stArmed := s.stArmed && !s.beepDue, events := s.events ++ if s.beepDue then [.beep] else [] } := by
  unfold beepCheck State.beepDue
  split
  · next h => simp [h, State.emit]
  · next h => simp [h]

/-- The state at S_FETCH in one record: the clock sampled, quit polled, a due beep emitted and disarmed (R64, R125). -/
theorem beforeFetch_record (s : State) :
    let now := s.now + s.input.elapsed
    let due := s.stArmed && decide (s.st.toNat ≤ now - s.stT)
    beforeFetch s =
      { s with
        now := now
        stArmed := s.stArmed && !due
        events := s.events ++ [.pollQuitRequested] ++ (if due then [.beep] else []) } := by
  unfold beforeFetch
  rw [beepCheck_record]
  rfl

/-- Before the fetch either a pending beep is emitted and disarmed, or both stay (R125). -/
theorem beforeFetch_beep (s : State) :
    (s.stArmed = true ∧ (beforeFetch s).stArmed = false ∧ (beforeFetch s).events.count .beep = s.events.count .beep + 1) ∨
    ((beforeFetch s).stArmed = s.stArmed ∧ (beforeFetch s).events.count .beep = s.events.count .beep) := by
  rw [beforeFetch_record]
  cases ha : s.stArmed <;> by_cases hd : s.st.toNat ≤ s.now + s.input.elapsed - s.stT <;> simp [hd]

/-- A fetch out of bounds, with what it records (R41). -/
theorem fetchDecode_outside {s : State} (h : memSize ≤ s.pc.toNat + 1) :
    fetchDecode s = .error (.outOfMemory s.pc.toNat) := by
  unfold fetchDecode fetch
  rw [if_pos h]

/-- Fetching reads memory, pc and FETCH_ORDER alone. -/
theorem fetch_congr {s u : State} (hm : u.mem = s.mem) (hp : u.pc = s.pc) (hc : u.cfg = s.cfg) : fetch u = fetch s := by
  unfold fetch
  rw [hm, hp, hc]

/-- A fetch that answers a word was in bounds. -/
theorem fetch_inBounds {s : State} {op : Word} (h : fetch s = .ok op) : s.pc.toNat + 1 < memSize := by
  unfold fetch at h
  split at h
  · cases h
  · next hn => exact Nat.lt_of_not_le hn

theorem fetchDecode_inBounds {s : State} {i : Instr} (h : fetchDecode s = .ok i) : s.pc.toNat + 1 < memSize := by
  unfold fetchDecode at h
  split at h
  · cases h
  · next op hf => exact fetch_inBounds hf

end Sys2Proof.Machine
end

