-- ==== Sys2Proof/Laws/PerInstr.lean ====
section
/-! SUPPORT. Statements made per instruction: its word hits the pattern of R56 that builds it. -/

namespace Sys2Proof.Laws

/-- The instruction's word has the fixed nibbles of a pattern of R56, and that pattern builds the instruction from it:
no operand bit is lost between the encoder and the table. (Which pattern decode takes is the priority order's matter,
R53.) -/
def EncodeHits.Statement (i : Instr) : Prop :=
  ∃ (k : Nat) (p : Pattern), patterns[k]? = some p ∧ p.hits (encode i) = true ∧ p.build (encode i) = i

/-- The word of shape A·X·B·C, as its nibbles. -/
theorem EncodeHits.hits_AXBC_encXKK (a x : Nibble) (kk : Byte) (bits : Word) (f : Word → Instr)
    (h : bits = encXKK a 0#4 kk) : Pattern.hits ⟨0xF0FF#16, bits, f⟩ (encXKK a x kk) = true := by
  subst h
  rw [encXKK_eq_encXYN, encXKK_eq_encXYN, hits_AXBC _ _ _ _ _ _ (fieldX_encXYN ..)]
  simp

/-- The word of shape A·X·Y·B. -/
theorem EncodeHits.hits_AXYB_encXYN (a x y n : Nibble) (bits : Word) (f : Word → Instr)
    (h : bits = encXYN a 0#4 0#4 n) : Pattern.hits ⟨0xF00F#16, bits, f⟩ (encXYN a x y n) = true := by
  subst h
  rw [hits_AXYB _ _ _ _ _ _ (fieldX_encXYN ..) (fieldY_encXYN ..)]
  simp

/-- The word of a shape that fixes the leading nibble alone. -/
theorem EncodeHits.hits_oneNibble_encXYN (a x y n : Nibble) (bits : Word) (f : Word → Instr)
    (h : bits = encXYN a 0#4 0#4 0#4) : Pattern.hits ⟨0xF000#16, bits, f⟩ (encXYN a x y n) = true := by
  subst h
  rw [hits_oneNibble _ _ _ _ _ _ (fieldX_encXYN ..) (fieldY_encXYN ..) (fieldN_encXYN ..)]
  simp

theorem EncodeHits.cls : EncodeHits.Statement (.cls) :=
  ⟨0, _, rfl, by decide, rfl⟩

theorem EncodeHits.ret : EncodeHits.Statement (.ret) :=
  ⟨1, _, rfl, by decide, rfl⟩

theorem EncodeHits.skp (x : Nibble) : EncodeHits.Statement (.skp x) :=
  ⟨2, _, rfl, EncodeHits.hits_AXBC_encXKK _ _ _ _ _ (by decide), by simp [encode]⟩

theorem EncodeHits.sknp (x : Nibble) : EncodeHits.Statement (.sknp x) :=
  ⟨3, _, rfl, EncodeHits.hits_AXBC_encXKK _ _ _ _ _ (by decide), by simp [encode]⟩

theorem EncodeHits.ldVxDt (x : Nibble) : EncodeHits.Statement (.ldVxDt x) :=
  ⟨4, _, rfl, EncodeHits.hits_AXBC_encXKK _ _ _ _ _ (by decide), by simp [encode]⟩

theorem EncodeHits.ldVxK (x : Nibble) : EncodeHits.Statement (.ldVxK x) :=
  ⟨5, _, rfl, EncodeHits.hits_AXBC_encXKK _ _ _ _ _ (by decide), by simp [encode]⟩

theorem EncodeHits.ldDtVx (x : Nibble) : EncodeHits.Statement (.ldDtVx x) :=
  ⟨6, _, rfl, EncodeHits.hits_AXBC_encXKK _ _ _ _ _ (by decide), by simp [encode]⟩

theorem EncodeHits.ldStVx (x : Nibble) : EncodeHits.Statement (.ldStVx x) :=
  ⟨7, _, rfl, EncodeHits.hits_AXBC_encXKK _ _ _ _ _ (by decide), by simp [encode]⟩

theorem EncodeHits.addI (x : Nibble) : EncodeHits.Statement (.addI x) :=
  ⟨8, _, rfl, EncodeHits.hits_AXBC_encXKK _ _ _ _ _ (by decide), by simp [encode]⟩

theorem EncodeHits.ldF (x : Nibble) : EncodeHits.Statement (.ldF x) :=
  ⟨9, _, rfl, EncodeHits.hits_AXBC_encXKK _ _ _ _ _ (by decide), by simp [encode]⟩

theorem EncodeHits.ldB (x : Nibble) : EncodeHits.Statement (.ldB x) :=
  ⟨10, _, rfl, EncodeHits.hits_AXBC_encXKK _ _ _ _ _ (by decide), by simp [encode]⟩

theorem EncodeHits.storeRegs (x : Nibble) : EncodeHits.Statement (.storeRegs x) :=
  ⟨11, _, rfl, EncodeHits.hits_AXBC_encXKK _ _ _ _ _ (by decide), by simp [encode]⟩

theorem EncodeHits.loadRegs (x : Nibble) : EncodeHits.Statement (.loadRegs x) :=
  ⟨12, _, rfl, EncodeHits.hits_AXBC_encXKK _ _ _ _ _ (by decide), by simp [encode]⟩

theorem EncodeHits.seReg (x y : Nibble) : EncodeHits.Statement (.seReg x y) :=
  ⟨13, _, rfl, EncodeHits.hits_AXYB_encXYN _ _ _ _ _ _ (by decide), by simp [encode]⟩

theorem EncodeHits.ldReg (x y : Nibble) : EncodeHits.Statement (.ldReg x y) :=
  ⟨14, _, rfl, EncodeHits.hits_AXYB_encXYN _ _ _ _ _ _ (by decide), by simp [encode]⟩

theorem EncodeHits.orReg (x y : Nibble) : EncodeHits.Statement (.orReg x y) :=
  ⟨15, _, rfl, EncodeHits.hits_AXYB_encXYN _ _ _ _ _ _ (by decide), by simp [encode]⟩

theorem EncodeHits.andReg (x y : Nibble) : EncodeHits.Statement (.andReg x y) :=
  ⟨16, _, rfl, EncodeHits.hits_AXYB_encXYN _ _ _ _ _ _ (by decide), by simp [encode]⟩

theorem EncodeHits.xorReg (x y : Nibble) : EncodeHits.Statement (.xorReg x y) :=
  ⟨17, _, rfl, EncodeHits.hits_AXYB_encXYN _ _ _ _ _ _ (by decide), by simp [encode]⟩

theorem EncodeHits.addReg (x y : Nibble) : EncodeHits.Statement (.addReg x y) :=
  ⟨18, _, rfl, EncodeHits.hits_AXYB_encXYN _ _ _ _ _ _ (by decide), by simp [encode]⟩

theorem EncodeHits.sub (x y : Nibble) : EncodeHits.Statement (.sub x y) :=
  ⟨19, _, rfl, EncodeHits.hits_AXYB_encXYN _ _ _ _ _ _ (by decide), by simp [encode]⟩

theorem EncodeHits.shr (x y : Nibble) : EncodeHits.Statement (.shr x y) :=
  ⟨20, _, rfl, EncodeHits.hits_AXYB_encXYN _ _ _ _ _ _ (by decide), by simp [encode]⟩

theorem EncodeHits.subn (x y : Nibble) : EncodeHits.Statement (.subn x y) :=
  ⟨21, _, rfl, EncodeHits.hits_AXYB_encXYN _ _ _ _ _ _ (by decide), by simp [encode]⟩

theorem EncodeHits.shl (x y : Nibble) : EncodeHits.Statement (.shl x y) :=
  ⟨22, _, rfl, EncodeHits.hits_AXYB_encXYN _ _ _ _ _ _ (by decide), by simp [encode]⟩

theorem EncodeHits.sneReg (x y : Nibble) : EncodeHits.Statement (.sneReg x y) :=
  ⟨23, _, rfl, EncodeHits.hits_AXYB_encXYN _ _ _ _ _ _ (by decide), by simp [encode]⟩

theorem EncodeHits.seImm (x : Nibble) (kk : Byte) : EncodeHits.Statement (.seImm x kk) :=
  ⟨24, _, rfl, by rw [encode, encXKK_eq_encXYN]; exact EncodeHits.hits_oneNibble_encXYN _ _ _ _ _ _ (by decide),
    by simp [encode]⟩

theorem EncodeHits.sneImm (x : Nibble) (kk : Byte) : EncodeHits.Statement (.sneImm x kk) :=
  ⟨25, _, rfl, by rw [encode, encXKK_eq_encXYN]; exact EncodeHits.hits_oneNibble_encXYN _ _ _ _ _ _ (by decide),
    by simp [encode]⟩

theorem EncodeHits.ldImm (x : Nibble) (kk : Byte) : EncodeHits.Statement (.ldImm x kk) :=
  ⟨26, _, rfl, by rw [encode, encXKK_eq_encXYN]; exact EncodeHits.hits_oneNibble_encXYN _ _ _ _ _ _ (by decide),
    by simp [encode]⟩

theorem EncodeHits.addImm (x : Nibble) (kk : Byte) : EncodeHits.Statement (.addImm x kk) :=
  ⟨27, _, rfl, by rw [encode, encXKK_eq_encXYN]; exact EncodeHits.hits_oneNibble_encXYN _ _ _ _ _ _ (by decide),
    by simp [encode]⟩

theorem EncodeHits.rnd (x : Nibble) (kk : Byte) : EncodeHits.Statement (.rnd x kk) :=
  ⟨28, _, rfl, by rw [encode, encXKK_eq_encXYN]; exact EncodeHits.hits_oneNibble_encXYN _ _ _ _ _ _ (by decide),
    by simp [encode]⟩

theorem EncodeHits.drw (x y n : Nibble) : EncodeHits.Statement (.drw x y n) :=
  ⟨29, _, rfl, EncodeHits.hits_oneNibble_encXYN _ _ _ _ _ _ (by decide), by simp [encode]⟩

theorem EncodeHits.sys (nnn : Addr) : EncodeHits.Statement (.sys nnn) :=
  ⟨30, _, rfl, by rw [encode, encNNN_eq_encXYN]; exact EncodeHits.hits_oneNibble_encXYN _ _ _ _ _ _ (by decide),
    by simp [encode]⟩

theorem EncodeHits.jp (nnn : Addr) : EncodeHits.Statement (.jp nnn) :=
  ⟨31, _, rfl, by rw [encode, encNNN_eq_encXYN]; exact EncodeHits.hits_oneNibble_encXYN _ _ _ _ _ _ (by decide),
    by simp [encode]⟩

theorem EncodeHits.call (nnn : Addr) : EncodeHits.Statement (.call nnn) :=
  ⟨32, _, rfl, by rw [encode, encNNN_eq_encXYN]; exact EncodeHits.hits_oneNibble_encXYN _ _ _ _ _ _ (by decide),
    by simp [encode]⟩

theorem EncodeHits.ldI (nnn : Addr) : EncodeHits.Statement (.ldI nnn) :=
  ⟨33, _, rfl, by rw [encode, encNNN_eq_encXYN]; exact EncodeHits.hits_oneNibble_encXYN _ _ _ _ _ _ (by decide),
    by simp [encode]⟩

theorem EncodeHits.jpV0 (nnn : Addr) : EncodeHits.Statement (.jpV0 nnn) :=
  ⟨34, _, rfl, by rw [encode, encNNN_eq_encXYN]; exact EncodeHits.hits_oneNibble_encXYN _ _ _ _ _ _ (by decide),
    by simp [encode]⟩

end Sys2Proof.Laws
end

