-- ==== Sys2Proof/Tests/Slice0.lean ====
section
/-! SUPPORT. Tests: expected results from 95_test_vectors.md (named in each comment) or worked by hand from R56, and a
witness for every statement that has hypotheses. -/

namespace Sys2Proof.Tests

open Sys2Proof.Machine

/-! ### Small states -/

/-- Keys 7 and 10 are held, the draw is 0xAB, no first key, the display answers ok. -/
def host : HostInput where
  quit := false
  elapsed := 0
  rand := 0xAB#8
  keysDown := 0x0480#16
  firstKey := none
  displayOk := true

/-- The reset state with one listed input. -/
def base : State := { State.reset with inputs := [host] }

/-- The reset state with this input instead. -/
def given (h : HostInput) : State := { State.reset with inputs := [h] }

/-- `s` with some data registers set. -/
def regs (s : State) (l : List (Nibble × Byte)) : State := l.foldl (fun s p => s.setV p.1 p.2) s

/-- `s` with some bytes stored from `a` on. -/
def bytes (s : State) (a : Nat) (l : List Byte) : State := { s with mem := Memory.writeAll s.mem a l }

/-- The state a meaning answers. -/
def after (a : Answer) : State :=
  match a with
  | .next t => t
  | _ => State.reset

/-- One iteration that runs `op` at pc. -/
def run (op : Word) (s : State) : State := after (step (s.readyToFetch op))

/-! ### WellFormed: an ill-formed term for its one check (R54, R57) -/

theorem test_wellFormed_refuses_cls_word : (Instr.sys 0x0E0#12).wellFormed = false := by decide

theorem test_wellFormed_refuses_ret_word : (Instr.sys 0x0EE#12).wellFormed = false := by decide

theorem test_wellFormed_takes_neighbours :
    ((Instr.sys 0x0E1#12).wellFormed && (Instr.sys 0x0ED#12).wellFormed && (Instr.sys 0x000#12).wellFormed) = true := by
  decide

/-! ### Decoding: one word per constructor, written from its row of R56 -/

/-- 0000 nnnn nnnn nnnn (VD4), 0000 0000 1110 0000 (VD1), 0000 0000 1110 1110 (VD2). -/
theorem test_decode_legacy_display_return :
    decode 0b0000_0000_1110_0001#16 = .ok (.sys 0x0E1#12) ∧ decode 0b0000_0000_1110_0000#16 = .ok .cls ∧
    decode 0b0000_0000_1110_1110#16 = .ok .ret := ⟨rfl, rfl, rfl⟩

/-- Leading nibbles 1, 2 and B: the jumps and the call. -/
theorem test_decode_jumps :
    decode 0b0001_0001_0010_0011#16 = .ok (.jp 0x123#12) ∧ decode 0b0010_0010_0000_1110#16 = .ok (.call 0x20E#12) ∧
    decode 0b1011_1111_1111_1111#16 = .ok (.jpV0 0xFFF#12) := ⟨rfl, rfl, rfl⟩

/-- Leading nibbles 3, 4, 5 and 9: the compare skips. -/
theorem test_decode_skips :
    decode 0b0011_0011_0100_0010#16 = .ok (.seImm 3#4 0x42#8) ∧
    decode 0b0100_0011_0100_0010#16 = .ok (.sneImm 3#4 0x42#8) ∧
    decode 0b0101_0001_0010_0000#16 = .ok (.seReg 1#4 2#4) ∧
    decode 0b1001_0001_0010_0000#16 = .ok (.sneReg 1#4 2#4) := ⟨rfl, rfl, rfl, rfl⟩

/-- Leading nibbles 6 and 7, and last nibbles 0 to 3 of leading nibble 8: loads and logic. -/
theorem test_decode_loads_logic :
    decode 0b0110_1010_0000_0101#16 = .ok (.ldImm 0xA#4 0x05#8) ∧
    decode 0b0111_0000_0000_0001#16 = .ok (.addImm 0#4 0x01#8) ∧
    decode 0b1000_0001_0010_0000#16 = .ok (.ldReg 1#4 2#4) ∧ decode 0b1000_0001_0010_0001#16 = .ok (.orReg 1#4 2#4) ∧
    decode 0b1000_0001_0010_0010#16 = .ok (.andReg 1#4 2#4) ∧
    decode 0b1000_0001_0010_0011#16 = .ok (.xorReg 1#4 2#4) := ⟨rfl, rfl, rfl, rfl, rfl, rfl⟩

/-- Last nibbles 4, 5, 6, 7 and E of leading nibble 8: flag arithmetic. -/
theorem test_decode_flag_arithmetic :
    decode 0b1000_0001_0010_0100#16 = .ok (.addReg 1#4 2#4) ∧ decode 0b1000_0001_0010_0101#16 = .ok (.sub 1#4 2#4) ∧
    decode 0b1000_1010_1011_0110#16 = .ok (.shr 0xA#4 0xB#4) ∧
    decode 0b1000_0001_0010_0111#16 = .ok (.subn 1#4 2#4) ∧
    decode 0b1000_0001_0010_1110#16 = .ok (.shl 1#4 2#4) := ⟨rfl, rfl, rfl, rfl, rfl⟩

/-- Leading nibbles A, C and D, and FX1E: address register, random, draw. -/
theorem test_decode_address_random_draw :
    decode 0b1010_0011_0000_0000#16 = .ok (.ldI 0x300#12) ∧ decode 0b1100_0011_0000_1111#16 = .ok (.rnd 3#4 0x0F#8) ∧
    decode 0b1101_0001_0010_1111#16 = .ok (.drw 1#4 2#4 15#4) ∧
    decode 0b1111_0010_0001_1110#16 = .ok (.addI 2#4) := ⟨rfl, rfl, rfl, rfl⟩

/-- EX9E, EXA1 and FX0A (VD11): keys. FX07, FX15 and FX18: timers. -/
theorem test_decode_keys_timers :
    decode 0b1110_0001_1001_1110#16 = .ok (.skp 1#4) ∧ decode 0b1110_0001_1010_0001#16 = .ok (.sknp 1#4) ∧
    decode 0b1111_0011_0000_1010#16 = .ok (.ldVxK 3#4) ∧ decode 0b1111_0010_0000_0111#16 = .ok (.ldVxDt 2#4) ∧
    decode 0b1111_0010_0001_0101#16 = .ok (.ldDtVx 2#4) ∧ decode 0b1111_0010_0001_1000#16 = .ok (.ldStVx 2#4) :=
  ⟨rfl, rfl, rfl, rfl, rfl, rfl⟩

/-- FX29, FX33, FX55 and FX65 (VD13): memory. -/
theorem test_decode_memory :
    decode 0b1111_0100_0010_1001#16 = .ok (.ldF 4#4) ∧ decode 0b1111_0000_0011_0011#16 = .ok (.ldB 0#4) ∧
    decode 0b1111_0010_0101_0101#16 = .ok (.storeRegs 2#4) ∧
    decode 0b1111_1111_0110_0101#16 = .ok (.loadRegs 15#4) := ⟨rfl, rfl, rfl, rfl⟩

/-- VD7, VD9, VD10, VD11 and VD12: words that are no instruction. -/
theorem test_decode_refuses :
    ([0x5121#16, 0x8008#16, 0x8009#16, 0x800A#16, 0x800B#16, 0x800C#16, 0x800D#16, 0x800F#16, 0x9001#16] ++
      [0xE09F#16, 0xF000#16, 0xF075#16, 0xFFFF#16]).all (fun op => decide (decode op = .error (.unknownOpcode op))) =
      true := by decide

/-- A word a pattern of each of two rows would hit: the row with more fixed nibbles decodes it (R53; E1). Of the table's
35 patterns only SYS meets another's words. -/
theorem test_patterns_overlap_only_at_sys :
    patterns.Pairwise (fun p q => (p.bits ^^^ q.bits) &&& (p.mask &&& q.mask) ≠ 0#16 ∨ q.bits = 0x0000#16) := by decide

/-- The encoder, on words of the spec's programs P1 to P9. -/
theorem test_encode_program_words :
    encode (.addReg 0xA#4 0xB#4) = 0x8AB4#16 ∧ encode (.call 0x20E#12) = 0x220E#16 ∧
    encode (.drw 1#4 2#4 1#4) = 0xD121#16 ∧ encode (.ldF 0xA#4) = 0xFA29#16 ∧ encode (.skp 1#4) = 0xE19E#16 :=
  ⟨rfl, rfl, rfl, rfl, rfl⟩

/-- Bytes that end inside an instruction are refused by name; the bytes after one are given back (R50). -/
theorem test_decodeBytes :
    decodeBytes .bigEndian [0x12#8] = .error .truncated ∧
    decodeBytes .bigEndian [0x6A#8, 0x05#8, 0xFF#8] = .ok (.ldImm 0xA#4 0x05#8, [0xFF#8]) ∧
    decodeBytes .littleEndian [0x05#8, 0x6A#8] = .ok (.ldImm 0xA#4 0x05#8, []) := ⟨rfl, rfl, rfl⟩

theorem test_decodeTableWord :
    decodeTableWord 16 0x8AB6 = some (.shr 0xA#4 0xB#4) ∧ decodeTableWord 16 0x5121 = none := ⟨rfl, rfl⟩

/-! ### State, memory, fetch, loader -/

/-- VZ1, and the glyph of A as P7 reads it. -/
theorem test_reset :
    State.reset.pc = 0x200#16 ∧ State.reset.status = .running ∧ Memory.read State.reset.mem 0x032 = 0xF0#8 ∧
    Memory.read State.reset.mem 0x050 = 0x00#8 ∧ fontTable.length = 80 := by decide

/-- VF1 and VF5: high byte first, at an even and at an odd address. -/
theorem test_fetch_bigEndian :
    fetch (bytes base 0x200 [0x6A#8, 0x05#8]) = .ok 0x6A05#16 ∧
    fetch { bytes base 0x201 [0x12#8, 0x34#8] with pc := 0x201#16 } = .ok 0x1234#16 := by decide

/-- VF2 and VF3: the last address an opcode can stand at, and the first it cannot. -/
theorem test_fetch_bounds :
    fetch { bytes base 0xFFD [0x12#8, 0x34#8] with pc := 0xFFD#16 } = .ok 0x1234#16 ∧
    fetch { base with pc := 0xFFE#16 } = .error (.outOfMemory 0xFFE) := by decide

/-- VZ2 and VZ3 by length: 3583 bytes fit, 3584 do not. -/
theorem test_launch_bounds :
    (State.launch defaultConfig fontTable (List.replicate 3584 0#8) 0).isSome = false ∧
    progStart + 3583 ≤ memSize ∧ ¬ progStart + 3584 ≤ memSize := by
  refine ⟨?_, by decide, by decide⟩
  rw [State.launch, if_neg]
  · rfl
  · rw [List.length_replicate]; decide

/-- Writing the value an unlisted address reads as removes the entry (log entry 8). -/
theorem test_memory_canonical :
    Memory.write (Memory.write [] 0x300 7#8) 0x300 0#8 = [] ∧ Memory.write [] 0x032 0xF0#8 = [] ∧
    Memory.write (Memory.write [] 0x301 1#8) 0x300 2#8 = [(0x300, 2#8), (0x301, 1#8)] := by decide

/-! ### One step per instruction, run through fetch and decode -/

/-- VY1. -/
theorem test_sys : (run 0x0123#16 base).pc = 0x202#16 := by decide

/-- VC1 and VC2. -/
theorem test_jp : (run 0x1123#16 base).pc = 0x123#16 ∧ (run 0x1200#16 base).pc = 0x200#16 := by decide

/-- VC4: the target is not reduced to 12 bits. -/
theorem test_jpV0 : (run 0xBFFF#16 (regs base [(0#4, 0xFF#8)])).pc = 0x10FE#16 := by decide

/-- VC5. -/
theorem test_call :
    let t := run 0x220E#16 { base with pc := 0x208#16 }
    t.stack = [0x208#16] ∧ t.pc = 0x20E#16 := by decide

/-- VC7. -/
theorem test_call_overflow :
    let t := run 0x2400#16 { base with pc := 0x300#16, stack := List.replicate 16 0x208#16 }
    t.status = .faulted (.stackOverflow 0x300#16) ∧ t.pc = 0x300#16 ∧ t.sp = 16 := by decide

/-- VC10. -/
theorem test_ret :
    let t := run 0x00EE#16 { base with stack := [0x208#16, 0x310#16] }
    t.stack = [0x208#16] ∧ t.pc = 0x312#16 := by decide

/-- VC9. -/
theorem test_ret_underflow :
    let t := run 0x00EE#16 { base with pc := 0x210#16 }
    t.status = .faulted .stackUnderflow ∧ t.pc = 0x210#16 := by decide

/-- VS1, VS2. -/
theorem test_seImm :
    (run 0x3342#16 (regs base [(3#4, 0x42#8)])).pc = 0x204#16 ∧
    (run 0x3343#16 (regs base [(3#4, 0x42#8)])).pc = 0x202#16 := by decide

/-- VS3, VS4. -/
theorem test_sneImm :
    (run 0x4342#16 (regs base [(3#4, 0x42#8)])).pc = 0x202#16 ∧
    (run 0x4300#16 (regs base [(3#4, 0x42#8)])).pc = 0x204#16 := by decide

/-- E12. -/
theorem test_seReg :
    (run 0x5120#16 (regs base [(1#4, 7#8), (2#4, 7#8)])).pc = 0x204#16 ∧
    (run 0x5120#16 (regs base [(1#4, 7#8), (2#4, 8#8)])).pc = 0x202#16 := by decide

/-- VS6, VS7. -/
theorem test_sneReg :
    (run 0x9120#16 (regs base [(1#4, 1#8), (2#4, 2#8)])).pc = 0x204#16 ∧
    (run 0x9440#16 base).pc = 0x202#16 := by decide

/-- VL2: VF as a plain destination. -/
theorem test_ldImm : (run 0x6F05#16 base).getV 15#4 = 0x05#8 := by decide

/-- VL3: no carry is written. -/
theorem test_addImm :
    let t := run 0x7001#16 (regs base [(0#4, 0xFF#8), (15#4, 1#8)])
    t.getV 0#4 = 0x00#8 ∧ t.getV 15#4 = 1#8 := by decide

/-- VL5. -/
theorem test_ldReg :
    let t := run 0x8120#16 (regs base [(1#4, 0x12#8), (2#4, 0x34#8)])
    t.getV 1#4 = 0x34#8 ∧ t.getV 2#4 = 0x34#8 := by decide

/-- VL6, VL7, VL8: VF is not reset. -/
theorem test_logic :
    let s := regs base [(1#4, 0xF0#8), (2#4, 0x3F#8), (15#4, 1#8)]
    (run 0x8121#16 s).getV 1#4 = 0xFF#8 ∧ (run 0x8122#16 s).getV 1#4 = 0x30#8 ∧
    (run 0x8123#16 s).getV 1#4 = 0xCF#8 ∧ (run 0x8121#16 s).getV 15#4 = 1#8 := by decide

/-- E5, VA1. -/
theorem test_addReg :
    let t := run 0x8124#16 (regs base [(1#4, 250#8), (2#4, 10#8)])
    let u := run 0x8124#16 (regs base [(1#4, 0xFF#8), (2#4, 0#8), (15#4, 7#8)])
    t.getV 1#4 = 4#8 ∧ t.getV 15#4 = 1#8 ∧ u.getV 1#4 = 0xFF#8 ∧ u.getV 15#4 = 0#8 := by decide

/-- VA4 under both orders of the two writes, and VA5. -/
theorem test_addReg_vf :
    let s := regs base [(15#4, 0x10#8), (1#4, 0x20#8)]
    (run 0x8F14#16 s).getV 15#4 = 0x30#8 ∧
    (run 0x8F14#16 { s with cfg := { s.cfg with vfWriteOrder := .flagLast } }).getV 15#4 = 0#8 ∧
    (run 0x81F4#16 (regs base [(1#4, 2#8), (15#4, 1#8)])).getV 1#4 = 3#8 := by decide

/-- E7, VA6: equal operands give VF = 0. -/
theorem test_sub :
    let t := run 0x8125#16 (regs base [(1#4, 10#8), (2#4, 20#8)])
    let u := run 0x8125#16 (regs base [(1#4, 5#8), (2#4, 5#8), (15#4, 1#8)])
    t.getV 1#4 = 246#8 ∧ t.getV 15#4 = 0#8 ∧ u.getV 1#4 = 0#8 ∧ u.getV 15#4 = 0#8 := by decide

/-- VA8, VA9. -/
theorem test_subn :
    let t := run 0x8127#16 (regs base [(1#4, 10#8), (2#4, 20#8)])
    let u := run 0x8127#16 (regs base [(1#4, 20#8), (2#4, 10#8)])
    t.getV 1#4 = 10#8 ∧ t.getV 15#4 = 1#8 ∧ u.getV 1#4 = 246#8 ∧ u.getV 15#4 = 0#8 := by decide

/-- E9, VA13 under both sources. -/
theorem test_shr :
    let s := regs base [(1#4, 4#8), (2#4, 0xFF#8)]
    let t := run 0x8126#16 { s with cfg := { s.cfg with shiftSource := .vy } }
    (run 0x8106#16 (regs base [(1#4, 3#8)])).getV 15#4 = 1#8 ∧ (run 0x8126#16 s).getV 1#4 = 2#8 ∧
    t.getV 1#4 = 0x7F#8 ∧ t.getV 15#4 = 1#8 := by decide

/-- E10, VA16. -/
theorem test_shl :
    let t := run 0x810E#16 (regs base [(1#4, 0x81#8)])
    let u := run 0x810E#16 (regs base [(1#4, 0x7F#8)])
    t.getV 1#4 = 2#8 ∧ t.getV 15#4 = 1#8 ∧ u.getV 1#4 = 0xFE#8 ∧ u.getV 15#4 = 0#8 := by decide

/-- VR2. -/
theorem test_ldI : (run 0xAFFF#16 base).I = 0x0FFF#16 := by decide

/-- VR4, VR5. -/
theorem test_addI :
    let t := run 0xF11E#16 { regs base [(1#4, 1#8)] with I := 0x0FFF#16 }
    t.I = 0x1000#16 ∧ t.getV 15#4 = 0#8 ∧
    (run 0xF11E#16 { regs base [(1#4, 2#8)] with I := 0xFFFF#16 }).I = 0x0001#16 := by decide

/-- VR6, VR7. -/
theorem test_rnd : (run 0xC30F#16 base).getV 3#4 = 0x0B#8 ∧ (run 0xC300#16 base).getV 3#4 = 0#8 := by decide

/-- VI1, VI4 on key 10, which is held, and VI2 on key 9, which is not. -/
theorem test_skp :
    (run 0xE59E#16 (regs base [(5#4, 0x0A#8)])).pc = 0x204#16 ∧
    (run 0xE59E#16 (regs base [(5#4, 0x09#8)])).pc = 0x202#16 ∧
    (run 0xE5A1#16 (regs base [(5#4, 0x0A#8)])).pc = 0x202#16 ∧
    (run 0xE5A1#16 (regs base [(5#4, 0x09#8)])).pc = 0x204#16 := by decide

/-- VI5 under the three policies. -/
theorem test_key_range :
    let s := regs base [(5#4, 0x10#8)]
    let t := run 0xE59E#16 s
    let u := run 0xE59E#16 { s with cfg := { s.cfg with keyRangePolicy := .notPressed } }
    let w := run 0xE59E#16 { s with cfg := { s.cfg with keyRangePolicy := .maskLowNibble } }
    t.status = .faulted (.keyOutOfRange 0x10#8) ∧ t.events = [.pollQuitRequested] ∧
    u.pc = 0x202#16 ∧ u.events = [.pollQuitRequested] ∧
    w.events = [.pollQuitRequested, .isKeyDown 0#4] := by decide

/-- VI6, VI7. -/
theorem test_ldVxK :
    let t := run 0xF30A#16 (given { host with firstKey := some 15#4 })
    (run 0xF30A#16 base).pc = 0x200#16 ∧ t.getV 3#4 = 0x0F#8 ∧ t.pc = 0x202#16 := by decide

/-- VT4: DT = 5 written at 10, read at 13. VT3: the decay stops at 0. -/
theorem test_ldVxDt :
    let s := { given { host with elapsed := 3 } with dt := 5#8, dtT := 10, now := 10 }
    let t := run 0xF107#16 s
    t.getV 1#4 = 2#8 ∧ t.dt = 2#8 ∧ t.dtT = 13 ∧ (run 0xF107#16 { s with now := 17 }).getV 1#4 = 0#8 := by decide

/-- VT9. -/
theorem test_ldDtVx :
    let t := run 0xF015#16 (regs (given { host with elapsed := 50 }) [(0#4, 7#8)])
    t.dt = 7#8 ∧ t.dtT = 50 := by decide

/-- VT6: the write. -/
theorem test_ldStVx :
    let t := run 0xF018#16 (regs (given { host with elapsed := 100 }) [(0#4, 3#8)])
    t.st = 3#8 ∧ t.stT = 100 ∧ t.stArmed = true ∧ t.beeps = 0 := by decide

/-- VT6: the beep, at 102 not yet, at 103 once. -/
theorem test_beep :
    let s := { given { host with elapsed := 2 } with st := 3#8, stT := 100, stArmed := true, now := 100 }
    (run 0x1200#16 s).beeps = 0 ∧ (run 0x1200#16 { s with now := 101 }).beeps = 1 ∧
    (run 0x1200#16 { s with now := 101 }).stArmed = false := by decide

/-- VM12, VM13 under both policies. -/
theorem test_ldF :
    let s := regs base [(4#4, 0x10#8)]
    (run 0xF429#16 (regs base [(4#4, 0x0F#8)])).I = 0x04B#16 ∧ (run 0xF429#16 s).I = 0x050#16 ∧
    (run 0xF429#16 { s with cfg := { s.cfg with fontDigitPolicy := .maskLowNibble } }).I = 0#16 := by decide

/-- E13. -/
theorem test_ldB :
    let t := run 0xF033#16 { regs base [(0#4, 234#8)] with I := 0x300#16 }
    Memory.read t.mem 0x300 = 2#8 ∧ Memory.read t.mem 0x301 = 3#8 ∧ Memory.read t.mem 0x302 = 4#8 ∧
    t.I = 0x300#16 := by decide

/-- VM10: the digits before the fault stay written. -/
theorem test_ldB_out_of_memory :
    let t := run 0xF033#16 { regs base [(0#4, 123#8)] with I := 0xFFD#16 }
    Memory.read t.mem 0xFFD = 1#8 ∧ Memory.read t.mem 0xFFE = 2#8 ∧ t.status = .faulted (.outOfMemory 0xFFF) ∧
    t.pc = 0x200#16 := by decide

/-- VM1, and the alternatives of I_AFTER_BLOCK_MOVE (R107). -/
theorem test_storeRegs :
    let s := { regs base [(0#4, 0x11#8), (1#4, 0x22#8)] with I := 0x300#16 }
    let t := run 0xF155#16 s
    Memory.read t.mem 0x300 = 0x11#8 ∧ Memory.read t.mem 0x301 = 0x22#8 ∧ t.I = 0x300#16 ∧
    (run 0xF155#16 { s with cfg := { s.cfg with iAfterBlockMove := .plusXPlus1 } }).I = 0x302#16 ∧
    (run 0xF155#16 { s with cfg := { s.cfg with iAfterBlockMove := .plusX } }).I = 0x301#16 := by decide

/-- VX4: the lowest address out of bounds is reported. -/
theorem test_storeRegs_out_of_memory :
    let t := run 0xF255#16 { regs base [(0#4, 0x99#8)] with I := 0xFFE#16 }
    Memory.read t.mem 0xFFE = 0x99#8 ∧ t.status = .faulted (.outOfMemory 0xFFF) := by decide

/-- VM4. -/
theorem test_loadRegs :
    let t := run 0xF265#16 { bytes base 0x300 [2#8, 3#8, 4#8, 5#8] with I := 0x300#16 }
    t.getV 0#4 = 2#8 ∧ t.getV 1#4 = 3#8 ∧ t.getV 2#4 = 4#8 ∧ t.getV 3#4 = 0#8 ∧ t.I = 0x300#16 := by decide

/-- VM5. -/
theorem test_loadRegs_out_of_memory :
    let t := run 0xF065#16 { regs base [(0#4, 9#8)] with I := 0xFFF#16 }
    t.status = .faulted (.outOfMemory 0xFFF) ∧ t.getV 0#4 = 9#8 := by decide

/-- A state about to draw: a sprite byte at 0x300. -/
def drawing (b : Byte) : State := { bytes base 0x300 [b] with I := 0x300#16 }

/-- VP1; VP3: the start position wraps; VP9: the position is taken before VF is reset; VP7: VF is reset before the
sprite is read; VP8: the grid is changed before the frame is presented. -/
theorem test_drw :
    let t := run 0xD011#16 (drawing 0x80#8)
    let u := run 0xD011#16 (regs (drawing 0xF0#8) [(0#4, 70#8), (1#4, 33#8)])
    let w := run 0xDF01#16 (regs (drawing 0x80#8) [(15#4, 5#8)])
    let o := run 0xD012#16 (regs { base with I := 0xFFE#16 } [(15#4, 1#8)])
    let e := run 0xD011#16 { drawing 0x80#8 with inputs := [{ host with displayOk := false }] }
    (Grid.lit t.fb 0 0 = true ∧ Grid.lit t.fb 1 0 = false ∧ t.getV 15#4 = 0#8 ∧ t.pc = 0x202#16) ∧
    (Grid.lit u.fb 6 1 = true ∧ Grid.lit u.fb 9 1 = true ∧ Grid.lit u.fb 10 1 = false) ∧
    (Grid.lit w.fb 5 0 = true ∧ w.getV 15#4 = 0#8) ∧
    (o.status = .faulted (.outOfMemory 0xFFF) ∧ o.getV 15#4 = 0#8 ∧ o.events = [.pollQuitRequested]) ∧
    (e.status = .faulted (.ioError .present) ∧ Grid.lit e.fb 0 0 = true ∧ e.pc = 0x200#16) := by decide

/-- VP4 and VP13: column 64 is clipped by default and wraps under the alternative. VP10: a collision. -/
theorem test_drw_edge_collision :
    let s := regs (drawing 0xC0#8) [(0#4, 63#8)]
    let t := run 0xD011#16 s
    let u := run 0xD011#16 { s with cfg := { s.cfg with drawEdge := .wrap } }
    let w := run 0xD011#16 { drawing 0xFF#8 with fb := Grid.flip Grid.blank 3 0 }
    Grid.lit t.fb 63 0 = true ∧ Grid.lit t.fb 0 0 = false ∧ Grid.lit u.fb 0 0 = true ∧
    Grid.lit w.fb 3 0 = false ∧ Grid.lit w.fb 4 0 = true ∧ w.getV 15#4 = 1#8 := by decide

/-- VP11, VP12. -/
theorem test_cls :
    let t := run 0x00E0#16 { base with fb := Grid.flip Grid.blank 3 0 }
    let u := run 0x00E0#16 (given { host with displayOk := false })
    Grid.lit t.fb 3 0 = false ∧ t.pc = 0x202#16 ∧ t.events = [.pollQuitRequested, .clear] ∧
    u.status = .faulted (.ioError .clear) ∧ u.pc = 0x200#16 := by decide

/-! ### The iteration -/

/-- VX1: quit comes before the fetch of a word that is no instruction. -/
theorem test_quit_first :
    let t := after (step (bytes (given { host with quit := true }) 0x200 [0x51#8, 0x21#8]))
    t.status = .quit ∧ t.pc = 0x200#16 ∧ t.events = [.pollQuitRequested] := by decide

/-- VX2: one beep, then the fetch's error. -/
theorem test_beep_before_fetch :
    let t := after (step { base with stArmed := true, pc := 0xFFE#16 })
    t.status = .faulted (.outOfMemory 0xFFE) ∧ t.beeps = 1 := by decide

/-- E15, VX3. -/
theorem test_unknown_opcode :
    let t := run 0x5121#16 base
    t.status = .faulted (.unknownOpcode 0x5121#16) ∧ t.pc = 0x200#16 ∧ after (step t) = t := by decide

/-- The placed instruction is the very next one to run, from reset, where no input is listed (log entry 12). -/
theorem test_withFetchWord :
    (after (step (State.reset.withFetchWord 16 0x6A05))).getV 0xA#4 = 0x05#8 ∧
    (after (step (State.reset.withFetchWord 16 0x6A05))).pc = 0x202#16 := by decide

/-! ### Witnesses: states and operands that meet the hypotheses of a statement, at boundary values -/

theorem test_witness_DecodeOfEncode :
    (Instr.sys 0x0E1#12).wellFormed = true ∧ (Instr.shr 0xF#4 0xF#4).wellFormed = true := by decide

theorem test_witness_EncodeOfDecode : decode 0x0FFF#16 = .ok (.sys 0xFFF#12) ∧ decode 0x8FFE#16 = .ok (.shl 15#4 15#4) :=
  ⟨rfl, rfl⟩

theorem test_witness_LeadingNibbleSelects_SysIsNoOp :
    (0x0DF#12 ≠ 0x0E0#12 ∧ 0x0DF#12 ≠ 0x0EE#12) ∧ (0x0EF#12 ≠ 0x0E0#12 ∧ 0x0EF#12 ≠ 0x0EE#12) := by decide

/-- Canonical memory, at reset and after a store, and each clause at its boundary: addresses 4095 and 4094. -/
theorem test_witness_MemReadAndMemWrite :
    Memory.wf base.mem = true ∧ Memory.wf (bytes base 0x300 [1#8, 0#8, 2#8]).mem = true ∧ 4095 ≤ 4095 ∧ 4094 < 4095 := by
  decide

/-- Each clause at its boundary: pc = 0xFFE and pc = 0xFFD. -/
theorem test_witness_FetchJoinsTwoBytes :
    0xFFE ≤ ({ base with pc := 0xFFE#16 } : State).pc.toNat ∧ ({ base with pc := 0xFFD#16 } : State).pc.toNat < 0xFFE ∧
    base.cfg.fetchOrder = .bigEndian := by decide

/-- X = 1, I = 4093: the last stored address is 4094, and the fetch at 4093 is in bounds. -/
theorem test_witness_StoreSeenByNextFetch :
    let s := { base with I := 4093#16 }
    ∃ t u : State, Memory.wf s.mem = true ∧ s.cfg.fetchOrder = .bigEndian ∧ s.I.toNat + (1#4).toNat < 4095 ∧
      0 < (1#4).toNat ∧ exec (.storeRegs 1#4) s = .next t ∧ u.mem = t.mem ∧ u.cfg = s.cfg ∧
      u.pc.toNat = s.I.toNat + 0 := by
  refine ⟨after (exec (.storeRegs 1#4) { base with I := 4093#16 }),
    { after (exec (.storeRegs 1#4) { base with I := 4093#16 }) with pc := 4093#16 }, ?_⟩
  exact ⟨rfl, rfl, by decide, by decide, rfl, rfl, rfl, rfl⟩

theorem test_witness_StepRunsDecodedInstruction :
    let s := bytes base 0x200 [0x6A#8, 0x05#8]
    s.status = .running ∧ s.input.quit = false ∧ fetch s = .ok 0x6A05#16 ∧ decode 0x6A05#16 = .ok (.ldImm 0xA#4 5#8) := by
  decide

theorem test_witness_QuitComesFirst :
    let s := given { host with quit := true }
    s.status = .running ∧ s.input.quit = true := by decide

/-- At the boundary pc = 0xFFE, with a beep that is due in the same iteration (VX2). -/
theorem test_witness_FetchOutOfMemoryStep :
    let s := { base with pc := 0xFFE#16, stArmed := true }
    s.status = .running ∧ s.input.quit = false ∧ 0xFFE ≤ s.pc.toNat ∧ s.beepDue = true := by decide

theorem test_witness_UnknownOpcodeIsFatal :
    let s := bytes base 0x200 [0x51#8, 0x21#8]
    fetch s = .ok 0x5121#16 ∧ (∀ i, decode 0x5121#16 ≠ .ok i) ∧ s.status = .running ∧ s.input.quit = false := by
  refine ⟨by decide, fun i => ?_, by decide, by decide⟩
  rw [show decode 0x5121#16 = .error (.unknownOpcode 0x5121#16) from rfl]
  exact nofun

/-- The two terminal forms. -/
theorem test_witness_TerminalStatusStays :
    ({ base with status := .quit } : State).status = .quit ∧
    ∃ e, ({ base with status := .faulted .stackUnderflow } : State).status = .faulted e := ⟨rfl, _, rfl⟩

theorem test_witness_LaunchState : (List.replicate 3583 0#8).length ≤ 3583 ∧ ([0x12#8, 0x00#8] : List Byte).length ≤ 3583 :=
  ⟨by rw [List.length_replicate], by decide⟩

/-- The invariant at its edges: 16 entries, pc = 0x10FE, an entry 0xFFF, timers written this second. -/
theorem test_witness_StepKeepsInvariant :
    ∃ s t : State, s.Inv ∧ step s = .next t ∧ s.sp = 16 ∧ s.pc = 0x10FE#16 ∧ s.status = .running := by
  let s : State := { base with pc := 0x10FE#16, stack := List.replicate 16 0xFFF#16, dtT := 7, stT := 7, now := 7 }
  refine ⟨s, after (step s), ⟨rfl, by decide, by decide, ?_, by decide, by decide⟩, rfl, rfl, rfl, rfl⟩
  intro v hv
  rw [List.eq_of_mem_replicate hv]
  decide

/-- A step that executes, one that quits and one of a terminal machine each answer a next state. -/
theorem test_witness_IterationSamplesAndPolls :
    (∃ t, step base = .next t) ∧ (∃ t, step (given { host with quit := true }) = .next t) ∧
    ∃ t, step { base with status := .quit } = .next t := ⟨⟨_, rfl⟩, ⟨_, rfl⟩, ⟨_, rfl⟩⟩

/-- Each kind of instruction these statements speak of answers a next state. -/
theorem test_witness_VfWriters_SpecialRegisterWriters_GridAndMemoryWriters_Frames :
    (∃ t, exec (.addReg 14#4 15#4) base = .next t ∧ 14#4 ≠ 15#4) ∧ (∃ t, exec (.ldImm 0#4 1#8) base = .next t) ∧
    (∃ t, exec (.drw 0#4 1#4 5#4) base = .next t) ∧ (∃ t, exec .cls base = .next t) ∧
    (∃ t, exec (.call 0x300#12) base = .next t) ∧ (∃ t, exec .ret { base with stack := [0x200#16] } = .next t) ∧
    (∃ t, exec (.jp 0x300#12) base = .next t) ∧ (∃ t, exec (.ldVxDt 3#4) base = .next t) :=
  ⟨⟨_, rfl, by decide⟩, ⟨_, rfl⟩, ⟨_, rfl⟩, ⟨_, rfl⟩, ⟨_, rfl⟩, ⟨_, rfl⟩, ⟨_, rfl⟩, ⟨_, rfl⟩⟩

theorem test_witness_Frames_the_rest :
    (∃ t, exec (.ldI 0x300#12) base = .next t) ∧ (∃ t, exec (.ldDtVx 0#4) base = .next t) ∧
    (∃ t, exec (.ldStVx 0#4) base = .next t) ∧ (∃ t, exec (.skp 0#4) base = .next t) ∧
    (∃ t, exec (.ldVxK 0#4) base = .next t) ∧ (∃ t, exec (.storeRegs 15#4) base = .next t) ∧
    (∃ t, exec (.loadRegs 15#4) base = .next t) ∧ (∃ t, exec (.ldB 0#4) base = .next t) :=
  ⟨⟨_, rfl⟩, ⟨_, rfl⟩, ⟨_, rfl⟩, ⟨_, rfl⟩, ⟨_, rfl⟩, ⟨_, rfl⟩, ⟨_, rfl⟩, ⟨_, rfl⟩⟩

/-- `i` raises `e` from the running state `s`. -/
def raises (i : Instr) (s : State) (e : Error) : Bool :=
  decide (s.status = .running) && decide ((after (exec i s)).status = .faulted e)

/-- Each instruction that can raise does, at the first value where it does. -/
theorem test_witness_ErrorsOfEachInstruction :
    (raises (.call 0#12) { base with stack := List.replicate 16 0#16 } (.stackOverflow 0x200#16) &&
      raises .ret base .stackUnderflow &&
      raises (.drw 0#4 0#4 2#4) { base with I := 4094#16 } (.outOfMemory 4095) &&
      raises (.drw 0#4 0#4 1#4) (given { host with displayOk := false }) (.ioError .present) &&
      raises .cls (given { host with displayOk := false }) (.ioError .clear) &&
      raises (.ldB 0#4) { base with I := 4093#16 } (.outOfMemory 4095) &&
      raises (.storeRegs 0#4) { base with I := 4095#16 } (.outOfMemory 4095) &&
      raises (.loadRegs 0#4) { base with I := 4096#16 } (.outOfMemory 4096) &&
      raises (.skp 0#4) (regs base [(0#4, 16#8)]) (.keyOutOfRange 16#8) &&
      raises (.sknp 0#4) (regs base [(0#4, 16#8)]) (.keyOutOfRange 16#8)) = true := by decide

theorem test_witness_PcCategories :
    let s := { base with stack := [0x208#16] }
    ∃ t, exec .ret s = .next t ∧ t.status = s.status ∧ s.status = .running ∧ s.cfg.callPushValue = .pcOfCall :=
  ⟨_, rfl, rfl, rfl, rfl⟩

theorem test_witness_HostInputsReachOnlySix :
    ∃ t, (∀ x kk, Instr.ldImm 0#4 1#8 ≠ .rnd x kk) ∧ Instr.ldImm 0#4 1#8 ≠ .cls ∧
      (∀ x y n, Instr.ldImm 0#4 1#8 ≠ .drw x y n) ∧ (∀ x, Instr.ldImm 0#4 1#8 ≠ .skp x) ∧
      (∀ x, Instr.ldImm 0#4 1#8 ≠ .sknp x) ∧ (∀ x, Instr.ldImm 0#4 1#8 ≠ .ldVxK x) ∧
      exec (.ldImm 0#4 1#8) base = .next t :=
  ⟨_, nofun, nofun, nofun, nofun, nofun, nofun, rfl⟩

/-- A beep that is due this second, and one that is not yet. -/
theorem test_witness_BeepExactlyWhenDue :
    let s := { base with stArmed := true, st := 3#8, stT := 0, now := 3 }
    (∃ t, step s = .next t) ∧ s.status = .running ∧ s.input.quit = false ∧
    s.st.toNat ≤ s.now + s.input.elapsed - s.stT ∧ ∃ t, step { s with now := 2 } = .next t :=
  ⟨⟨_, rfl⟩, rfl, rfl, by decide, ⟨_, rfl⟩⟩

/-- An LD ST that arms with none pending, and one that arms again in the step that emits the earlier beep. The last
step emits a beep and leaves none pending. -/
theorem test_witness_BeepNeedsSoundWrite :
    let s := bytes base 0x200 [0xF0#8, 0x18#8]
    let u := { s with stArmed := true }
    let w := { base with stArmed := true }
    (∃ t, s.stArmed = false ∧ step s = .next t ∧ t.stArmed = true) ∧
    (∃ t, step u = .next t ∧ t.beeps ≠ u.beeps ∧ t.stArmed = true) ∧
    ∃ t, step w = .next t ∧ t.beeps ≠ w.beeps ∧ t.stArmed = false :=
  ⟨⟨after (step (bytes base 0x200 [0xF0#8, 0x18#8])), rfl, rfl, by decide⟩,
    ⟨after (step { bytes base 0x200 [0xF0#8, 0x18#8] with stArmed := true }), rfl, by decide, by decide⟩,
    ⟨after (step { base with stArmed := true }), rfl, by decide, by decide⟩⟩

/-- Each clause at its boundary: 15 entries and 16, and the empty stack and one entry. -/
theorem test_witness_CallPushesAndJumps_PushAndPop :
    base.stack = [] ∧ ({ base with stack := [1#16] } : State).stack = [] ++ [1#16] ∧
    ({ base with stack := List.replicate 15 0#16 } : State).stack.length < 16 ∧
    16 ≤ ({ base with stack := List.replicate 16 0#16 } : State).stack.length := by decide

theorem test_witness_RetPopsAndResumes :
    ({ base with stack := [1#16, 2#16] } : State).stack = [1#16] ++ [2#16] ∧ base.stack = [] := ⟨rfl, rfl⟩

theorem test_witness_ReturnAfterCall :
    let s := { base with stack := List.replicate 15 0#16 }
    ∃ t u : State, s.stack.length < 16 ∧ exec (.call 0x300#12) s = .next t ∧ u.stack = t.stack ∧ u.cfg = t.cfg :=
  ⟨_, after (exec (.call 0x300#12) { base with stack := List.replicate 15 0#16 }), by decide, rfl, rfl, rfl⟩

/-- The last sprite that fits, and a sprite of height 0 with I past the memory. -/
theorem test_witness_DrawFlipsCoveredPixels :
    ({ base with I := 4090#16 } : State).I.toNat + (5#4).toNat ≤ 4095 ∧ base.input.displayOk = true ∧ 0#4 = 0#4 := by
  decide

/-- A covered pixel that is lit, and a covered pixel that is not. -/
theorem test_witness_spriteCovers :
    spriteCovers (drawing 0x80#8) 63 31 1 63 31 ∧
    ¬ spriteCovers (drawing 0x00#8) 0 0 1 0 0 := by
  refine ⟨⟨0, 0, by decide, by decide, by decide, rfl, rfl⟩, ?_⟩
  rintro ⟨c, r, hc, hr, hb, -⟩
  obtain rfl : r = 0 := by omega
  revert hb
  interval_cases c <;> decide

theorem test_witness_DrawTwiceRestoresGrid :
    let s := drawing 0x80#8
    ∃ t u, 0#4 ≠ 15#4 ∧ 1#4 ≠ 15#4 ∧ s.I.toNat + (1#4).toNat ≤ 4095 ∧ s.input.displayOk = true ∧
      exec (.drw 0#4 1#4 1#4) s = .next t ∧ exec (.drw 0#4 1#4 1#4) t = .next u :=
  ⟨_, _, by decide, by decide, by decide, rfl, rfl, rfl⟩

theorem test_witness_ClsClearsGrid_DrawErrors :
    let s := given { host with displayOk := false }
    s.I.toNat + (15#4).toNat ≤ 4095 ∧ s.input.displayOk = false ∧ base.input.displayOk = true ∧
    (1#4 ≠ 0#4 ∧ 4095 < ({ base with I := 4095#16 } : State).I.toNat + (1#4).toNat) := by decide

/-- Each clause at its boundary: key values 15 and 16, under each policy. -/
theorem test_witness_KeySkips :
    ((regs base [(0#4, 15#8)]).getV 0#4).toNat ≤ 15 ∧ 15 < ((regs base [(0#4, 16#8)]).getV 0#4).toNat ∧
    base.cfg.keyRangePolicy = .fault ∧
    ({ base.cfg with keyRangePolicy := .notPressed } : Config).keyRangePolicy = .notPressed ∧
    ({ base.cfg with keyRangePolicy := .maskLowNibble } : Config).keyRangePolicy = .maskLowNibble := by decide

theorem test_witness_WaitForKey :
    base.input.firstKey = none ∧ (given { host with firstKey := some 15#4 }).input.firstKey = some 15#4 := by decide

theorem test_witness_DelayReadsCompose :
    let s := { base with dt := 5#8, dtT := 10, now := 12 }
    ∃ t u w, s.dtT ≤ s.now ∧ exec (.ldVxDt 1#4) s = .next t ∧ u.dt = t.dt ∧ u.dtT = t.dtT ∧ t.now ≤ u.now ∧
      exec (.ldVxDt 2#4) u = .next w :=
  ⟨_, after (exec (.ldVxDt 1#4) { base with dt := 5#8, dtT := 10, now := 12 }), _, by decide, rfl, rfl, rfl, by decide,
    rfl⟩

/-- The last block that fits, and each clause of the accesses that do not. -/
theorem test_witness_StoreRegisters_LoadRegisters_StoreDecimalDigits :
    let s := { base with I := 4079#16 }
    Memory.wf s.mem = true ∧ s.I.toNat + (15#4).toNat < 4095 ∧
    ({ base with I := 4092#16 } : State).I.toNat + 3 ≤ 4095 ∧
    4095 < ({ base with I := 4093#16 } : State).I.toNat + 3 ∧
    4095 ≤ ({ base with I := 4080#16 } : State).I.toNat + (15#4).toNat := by decide

theorem test_witness_LoadAfterStoreRestores :
    let s := { regs base [(0#4, 1#8)] with I := 4094#16 }
    ∃ t u w, Memory.wf s.mem = true ∧ s.I.toNat + (0#4).toNat < 4095 ∧ exec (.storeRegs 0#4) s = .next t ∧
      u.mem = t.mem ∧ u.regs = t.regs ∧ u.I = s.I ∧ exec (.loadRegs 0#4) u = .next w :=
  ⟨_, after (exec (.storeRegs 0#4) { regs base [(0#4, 1#8)] with I := 4094#16 }), _, rfl, by decide, rfl, rfl, rfl, rfl,
    rfl⟩

end Sys2Proof.Tests
end

section
/-! PROOFS. What one instruction can do to the state, said once (R15 to R29, R107, R116): the effect of `exec`. -/

namespace Sys2Proof.Machine

/-! ### Which registers an instruction may write, and where it leaves pc -/

/-- Register `r` is a destination of the instruction: X, VF of the flag writers, V[0] to V[X] of LD Vx, [I] (R15). -/
def WritesReg (i : Instr) (r : Nibble) : Prop :=
  match i with
  | .ldImm x _ | .addImm x _ | .ldReg x _ | .orReg x _ | .andReg x _ | .xorReg x _ | .rnd x _ | .ldVxDt x
  | .ldVxK x => r = x
  | .addReg x _ | .sub x _ | .shr x _ | .subn x _ | .shl x _ => r = x ∨ r = 15#4
  | .drw _ _ _ => r = 15#4
  | .loadRegs x => r ≤ x
  | _ => False

/-- How an instruction that raises nothing leaves pc (R18), under either CALL_PUSH_VALUE. -/
def PcUpdate (i : Instr) (s t : State) : Prop :=
  match i with
  | .jp nnn | .call nnn => t.pc = zext16 nnn
  | .jpV0 nnn => t.pc = s.indirectTarget nnn
  | .ret => ∃ v, s.stack = t.stack ++ [v] ∧ t.pc = returnTarget s.cfg.callPushValue v
  | .ldVxK _ => t.pc = if s.input.firstKey = none then s.pc else s.pc + 2#16
  | .seImm _ _ | .sneImm _ _ | .seReg _ _ | .sneReg _ _ | .skp _ | .sknp _ => t.pc = s.pc + 2#16 ∨ t.pc = s.pc + 4#16
  | _ => t.pc = s.pc + 2#16

/-- What `exec i s = .next t` can change. Every field has as its default the proof for an instruction that changes
nothing but pc, so each case below gives only what its instruction writes. -/
structure Effect (i : Instr) (s t : State) : Prop where
  regs : ∀ r, ¬ WritesReg i r → t.getV r = s.getV r := by exact fun _ _ => rfl
  I : t.I = s.I ∨ (∃ nnn, i = .ldI nnn) ∨ (∃ x, i = .addI x) ∨ (∃ x, i = .ldF x) ∨
    (s.cfg.iAfterBlockMove ≠ .unchanged ∧ ∃ x, i = .storeRegs x ∨ i = .loadRegs x) := by exact .inl rfl
  pc : (t.status = s.status ∧ PcUpdate i s t) ∨ ((∃ e, t.status = .faulted e) ∧ t.pc = s.pc) := by
    exact .inl ⟨rfl, rfl⟩
  stack : t.stack = s.stack ∨
    (s.sp < stackDepth ∧ t.stack = s.stack ++ [s.callValue] ∧ ∃ nnn, i = .call nnn) ∨
    ((∃ v, s.stack = t.stack ++ [v]) ∧ i = .ret) := by exact .inl rfl
  mem : t.mem = s.mem ∨
    ((Memory.wf s.mem = true → Memory.wf t.mem = true) ∧ ((∃ x, i = .ldB x) ∨ ∃ x, i = .storeRegs x)) := by
    exact .inl rfl
  delay : SameDelay s t ∨ (t.dtT = s.now ∧ ((∃ x, i = .ldDtVx x) ∨ ∃ x, i = .ldVxDt x)) := by exact .inl ⟨rfl, rfl⟩
  sound : SameSound s t ∨ (t.stT = s.now ∧ ∃ x, i = .ldStVx x) := by exact .inl ⟨rfl, rfl, rfl⟩
  fb : t.fb = s.fb ∨ i = .cls ∨ ∃ x y n, i = .drw x y n := by exact .inl rfl
  host : SameHost s t := by exact ⟨rfl, rfl, rfl, rfl⟩

/-! ### Registers, I and pc after the shared operations -/

theorem State.writeFlagged_ne (s : State) {x r : Nibble} (res : Byte) (flag : Bool) (h : ¬ (r = x ∨ r = 15#4)) :
    (s.writeFlagged x res flag).getV r = s.getV r := by
  rw [not_or] at h
  rw [State.getV_writeFlagged, if_neg (fun hx => h.1 hx.1), if_neg h.2]

/-- VF after a flagged result whose destination is another register (R15). -/
theorem State.writeFlagged_flag (s : State) {x : Nibble} (res : Byte) (flag : Bool) (h : x ≠ 15#4) :
    (s.writeFlagged x res flag).getV 15#4 = flagByte flag := by
  rw [State.getV_writeFlagged, if_neg (fun hx => h hx.1.symm), if_pos rfl]

theorem flagByte_cases (c : Bool) : flagByte c = 0#8 ∨ flagByte c = 1#8 := by
  cases c
  · exact .inl rfl
  · exact .inr rfl

/-- I moves after a block only under an alternative of I_AFTER_BLOCK_MOVE (R107, D13). -/
theorem State.afterBlockMove_I (s : State) (x : Nibble) :
    (s.afterBlockMove x).I = s.I ∨ s.cfg.iAfterBlockMove ≠ .unchanged := by
  by_cases h : s.cfg.iAfterBlockMove = .unchanged
  · exact .inl (by rw [State.afterBlockMove_unchanged h])
  · exact .inr h

/-- Both outcomes of a skip's pc (R18). -/
theorem skipTarget_cases (p : Word) (c : Bool) :
    (p + if c then 4#16 else 2#16) = p + 2#16 ∨ (p + if c then 4#16 else 2#16) = p + 4#16 := by
  cases c
  · exact .inl rfl
  · exact .inr rfl

/-! ### The effect of every instruction -/

section
variable {i : Instr} {s t : State}

/-- An error that is raised before anything is written (R116). -/
theorem Effect.ofRaised (e : Error) : Effect i s (s.raised e) := { pc := .inr ⟨⟨e, rfl⟩, rfl⟩ }

/-- Everything an instruction can do, whatever its operands and whether it raises or not. -/
theorem exec_effect (h : exec i s = .next t) : Effect i s t := by
  cases i with
  | sys _ | jp _ | jpV0 _ => cases h; exact {}
  | seImm _ _ | sneImm _ _ | seReg _ _ | sneReg _ _ =>
    cases h
    rw [State.skipIf_record]
    exact { pc := .inl ⟨rfl, skipTarget_cases ..⟩ }
  | skp x =>
    rcases exec_skp_cases h with ⟨evs, c, rfl⟩ | ⟨-, -, rfl⟩
    · exact { pc := .inl ⟨rfl, skipTarget_cases ..⟩ }
    · exact .ofRaised _
  | sknp x =>
    rcases exec_sknp_cases h with ⟨evs, c, rfl⟩ | ⟨-, -, rfl⟩
    · exact { pc := .inl ⟨rfl, skipTarget_cases ..⟩ }
    · exact .ofRaised _
  | call nnn =>
    rcases exec_call_cases h with ⟨hs, rfl⟩ | ⟨-, rfl⟩
    · exact { stack := .inr (.inl ⟨hs, rfl, nnn, rfl⟩) }
    · exact .ofRaised _
  | ret =>
    rcases exec_ret_cases h with ⟨l, v, hs, rfl⟩ | ⟨-, rfl⟩
    · exact { pc := .inl ⟨rfl, v, hs, rfl⟩, stack := .inr (.inr ⟨⟨v, hs⟩, rfl⟩) }
    · exact .ofRaised _
  | ldImm _ _ | addImm _ _ | ldReg _ _ | orReg _ _ | andReg _ _ | xorReg _ _ | rnd _ _ =>
    cases h
    exact { regs := fun r hr => State.writeResult_ne _ _ hr }
  | addReg _ _ | sub _ _ | shr _ _ | subn _ _ | shl _ _ =>
    cases h
    rw [State.writeFlagged_eq]
    exact { regs := fun r hr => State.writeFlagged_ne _ _ _ hr }
  | ldVxK x =>
    rcases exec_ldVxK_cases h with ⟨hk, rfl⟩ | ⟨k, hk, rfl⟩
    · exact { pc := .inl ⟨rfl, (if_pos hk).symm⟩ }
    · exact { regs := fun r hr => State.writeResult_ne _ _ hr, pc := .inl ⟨rfl, (if_neg (by simp [hk])).symm⟩ }
  | ldVxDt x =>
    cases h
    exact { regs := fun r hr => State.writeResult_ne _ _ hr, delay := .inr ⟨rfl, .inr ⟨x, rfl⟩⟩ }
  | ldDtVx x => cases h; exact { delay := .inr ⟨rfl, .inl ⟨x, rfl⟩⟩ }
  | ldStVx x => cases h; exact { sound := .inr ⟨rfl, x, rfl⟩ }
  | ldI nnn => cases h; exact { I := .inr (.inl ⟨nnn, rfl⟩) }
  | addI x => cases h; exact { I := .inr (.inr (.inl ⟨x, rfl⟩)) }
  | ldF x => cases h; exact { I := .inr (.inr (.inr (.inl ⟨x, rfl⟩))) }
  | cls =>
    rcases exec_cls_cases h with ⟨-, rfl⟩ | ⟨-, rfl⟩
    · exact { fb := .inr (.inl rfl) }
    · exact { fb := .inr (.inl rfl), pc := .inr ⟨⟨_, rfl⟩, rfl⟩ }
  | drw x y n =>
    rcases exec_drw_cases h with ⟨g, c, -, rfl⟩ | ⟨g, c, -, rfl⟩ | ⟨-, rfl⟩
    · exact { regs := fun r hr => State.getV_setV_ne _ _ hr, fb := .inr (.inr ⟨x, y, n, rfl⟩) }
    · exact { regs := fun r hr => State.getV_setV_ne _ _ hr, fb := .inr (.inr ⟨x, y, n, rfl⟩)
              pc := .inr ⟨⟨_, rfl⟩, rfl⟩ }
    · exact { regs := fun r hr => State.getV_setV_ne _ _ hr, pc := .inr ⟨⟨_, rfl⟩, rfl⟩ }
  | ldB x =>
    obtain ⟨u, hu, -, hw, ht⟩ := exec_ldB_cases h
    obtain ⟨m, rfl⟩ : ∃ m, u = { s with mem := m } := ⟨_, hu⟩
    rcases ht with rfl | ⟨-, rfl⟩
    · exact { mem := .inr ⟨hw, .inl ⟨x, rfl⟩⟩ }
    · exact { mem := .inr ⟨hw, .inl ⟨x, rfl⟩⟩, pc := .inr ⟨⟨_, rfl⟩, rfl⟩ }
  | storeRegs x =>
    obtain ⟨u, hu, -, hw, ht⟩ := exec_storeRegs_cases h
    obtain ⟨m, rfl⟩ : ∃ m, u = { s with mem := m } := ⟨_, hu⟩
    rcases ht with rfl | ⟨-, rfl⟩
    · have hI := State.afterBlockMove_I { s with mem := m } x
      rw [State.afterBlockMove_eq]
      exact { I := hI.imp_right fun hc => .inr (.inr (.inr ⟨hc, x, .inl rfl⟩))
              mem := .inr ⟨hw, .inr ⟨x, rfl⟩⟩ }
    · exact { mem := .inr ⟨hw, .inr ⟨x, rfl⟩⟩, pc := .inr ⟨⟨_, rfl⟩, rfl⟩ }
  | loadRegs x =>
    obtain ⟨u, hu, hr, ht⟩ := exec_loadRegs_cases h
    obtain ⟨rg, rfl⟩ : ∃ rg, u = { s with regs := rg } := ⟨_, hu⟩
    have hregs : ∀ r, ¬ WritesReg (.loadRegs x) r → State.getV { s with regs := rg } r = s.getV r :=
      fun r hnr => hr r (BitVec.not_le.mp hnr)
    rcases ht with rfl | ⟨-, rfl⟩
    · have hI := State.afterBlockMove_I { s with regs := rg } x
      rw [State.afterBlockMove_eq]
      exact { regs := hregs, I := hI.imp_right fun hc => .inr (.inr (.inr ⟨hc, x, .inr rfl⟩)) }
    · exact { regs := hregs, pc := .inr ⟨⟨_, rfl⟩, rfl⟩ }

end

end Sys2Proof.Machine
end

section
/-! PROOFS. The invariant: it holds at reset, and every step keeps it (R18, R20, R24, R121). -/

namespace Sys2Proof.Machine

/-! ### Addresses -/

theorem zext16_toNat (nnn : Addr) : (zext16 nnn).toNat = nnn.toNat := by
  simp only [zext16, BitVec.toNat_setWidth]
  omega

/-- The indirect jump never wraps (R71). -/
theorem State.indirectTarget_toNat (s : State) (nnn : Addr) :
    (s.indirectTarget nnn).toNat = nnn.toNat + (s.getV 0#4).toNat := by
  simp only [State.indirectTarget, BitVec.toNat_add, zext16_toNat, byteToWord, BitVec.toNat_setWidth]
  omega

theorem add_toNat_le (a n : Word) : (a + n).toNat ≤ a.toNat + n.toNat := by
  rw [BitVec.toNat_add]
  exact Nat.mod_le _ _

/-- Where an instruction that raises nothing leaves pc, when it was fetched from memory and every stack entry is an
address a CALL can push (R18). -/
theorem PcUpdate.bound {i : Instr} {s t : State} (h : PcUpdate i s t) (hpc : s.pc.toNat + 1 < memSize)
    (hs : ∀ v ∈ s.stack, v.toNat ≤ 0xFFF) : t.pc.toNat ≤ 0x10FE := by
  rw [memSize] at hpc
  have hadd : ∀ n : Word, n.toNat ≤ 4 → (s.pc + n).toNat ≤ 0x10FE := fun n hn =>
    (add_toNat_le s.pc n).trans (by omega)
  cases i with
  | jp nnn | call nnn =>
    have ht : t.pc = zext16 nnn := h
    rw [ht, zext16_toNat]
    omega
  | jpV0 nnn =>
    have ht : t.pc = s.indirectTarget nnn := h
    rw [ht, State.indirectTarget_toNat]
    omega
  | ret =>
    obtain ⟨v, hv, ht⟩ := h
    have hle := hs v (by simp [hv])
    rw [ht]
    cases s.cfg.callPushValue with
    | pcOfCall => exact (add_toNat_le v 2#16).trans ((Nat.add_le_add_right hle 2).trans (by decide))
    | pcPlus2 => exact hle.trans (by decide)
  | ldVxK x =>
    have ht : t.pc = if s.input.firstKey = none then s.pc else s.pc + 2#16 := h
    rw [ht]
    split
    · omega
    · exact hadd _ (by decide)
  | seImm _ _ | sneImm _ _ | seReg _ _ | sneReg _ _ | skp _ | sknp _ =>
    rcases h with h | h <;> exact h ▸ hadd _ (by decide)
  | _ => exact h ▸ hadd 2#16 (by decide)

/-- The value a CALL pushes is at most 0xFFF, since the CALL was fetched from memory (R72). -/
theorem State.callValue_le {s : State} (hpc : s.pc.toNat + 1 < memSize) : s.callValue.toNat ≤ 0xFFF := by
  rw [memSize] at hpc
  unfold State.callValue
  split
  · omega
  · have := add_toNat_le s.pc 2#16
    rw [show (2#16).toNat = 2 from rfl] at this
    omega

/-! ### Steps that execute nothing -/

/-- The invariant speaks of neither the status, the events, the armed bit nor the host's inputs, and a later clock keeps
it. -/
theorem State.Inv.ofLaterClock {s t : State} (h : s.Inv) (hm : t.mem = s.mem) (hs : t.stack = s.stack) (hp : t.pc = s.pc)
    (hd : t.dtT = s.dtT) (hst : t.stT = s.stT) (hn : s.now ≤ t.now) : t.Inv where
  memory := hm ▸ h.memory
  stack := by rw [State.sp, hs]; exact h.stack
  pc := hp ▸ h.pc
  entries := hs ▸ h.entries
  delay := hd ▸ h.delay.trans hn
  sound := hst ▸ h.sound.trans hn

theorem State.Inv.endIteration {s : State} (h : s.Inv) : s.endIteration.Inv :=
  h.ofLaterClock rfl rfl rfl rfl rfl le_rfl

theorem State.Inv.raised {s : State} (h : s.Inv) (e : Error) : (s.raised e).Inv :=
  h.ofLaterClock rfl rfl rfl rfl rfl le_rfl

theorem State.Inv.quitted {s : State} (h : s.Inv) : s.quitted.Inv :=
  h.ofLaterClock rfl rfl rfl rfl rfl (Nat.le_add_right ..)

theorem State.Inv.atFetch {s : State} (h : s.Inv) : (beforeFetch s).Inv := by
  rw [beforeFetch_record]
  exact h.ofLaterClock rfl rfl rfl rfl rfl (Nat.le_add_right ..)

/-! ### Steps that execute an instruction -/

/-- An instruction that was fetched from memory keeps the invariant. -/
theorem State.Inv.afterExec {i : Instr} {s t : State} (h : s.Inv) (hpc : s.pc.toNat + 1 < memSize)
    (hx : exec i s = .next t) : t.Inv := by
  have eff := exec_effect hx
  obtain ⟨-, hnow, -, -⟩ := eff.host
  constructor
  case memory =>
    rcases eff.mem with hm | ⟨hw, -⟩
    · exact hm ▸ h.memory
    · exact hw h.memory
  case stack =>
    have hsp := h.stack
    unfold State.sp at hsp ⊢
    rcases eff.stack with hs | ⟨hroom, hs, -⟩ | ⟨⟨v, hs⟩, -⟩
    · exact hs ▸ hsp
    · rw [hs, List.length_append]
      exact hroom
    · rw [hs, List.length_append] at hsp
      exact (Nat.le_add_right ..).trans hsp
  case pc =>
    rcases eff.pc with ⟨-, hu⟩ | ⟨-, hp⟩
    · exact hu.bound hpc h.entries
    · exact hp ▸ h.pc
  case entries =>
    rcases eff.stack with hs | ⟨-, hs, -⟩ | ⟨⟨v, hs⟩, -⟩
    · exact hs ▸ h.entries
    · rw [hs]
      exact List.forall_mem_append.2 ⟨h.entries, List.forall_mem_singleton.2 (State.callValue_le hpc)⟩
    · exact fun w hw => h.entries w (hs ▸ List.mem_append_left _ hw)
  case delay =>
    rw [hnow]
    rcases eff.delay with ⟨-, hd⟩ | ⟨hd, -⟩
    · exact hd ▸ h.delay
    · exact hd.le
  case sound =>
    rw [hnow]
    rcases eff.sound with ⟨-, hd, -⟩ | ⟨hd, -⟩
    · exact hd ▸ h.sound
    · exact hd.le

/-- Settles O16, by cases on what a step can do; the instruction executed was fetched from below 0xFFE. -/
theorem stepKeepsInvariant : Obligations.StepKeepsInvariant := by
  intro s t hs h
  rcases step_cases h with ⟨-, rfl⟩ | ⟨-, -, rfl⟩ | ⟨e, -, -, -, rfl⟩ | ⟨i, u, -, -, hf, hx, rfl⟩
  · exact hs
  · exact hs.quitted.endIteration
  · exact (hs.atFetch.raised e).endIteration
  · exact (hs.atFetch.afterExec (fetchDecode_inBounds hf) hx).endIteration

/-- Settles O17: memory lists nothing at reset and the stack is empty. -/
theorem resetMeetsInvariant : Obligations.ResetMeetsInvariant where
  memory := Memory.wf_reset
  stack := Nat.zero_le _
  pc := by decide
  entries := List.forall_mem_nil _
  delay := le_rfl
  sound := le_rfl

end Sys2Proof.Machine
end

section
/-! PROOFS. Who writes what, how pc moves, and the call stack: the rules over all instructions (R15, R18, R21 to R26). -/

namespace Sys2Proof.Machine

/-- DRW leaves a flag in VF, also where it raises (R99). -/
theorem exec_drw_flag {x y n : Nibble} {s t : State} (h : exec (.drw x y n) s = .next t) :
    ∃ c, t.getV 15#4 = flagByte c := by
  rcases exec_drw_cases h with ⟨_, c, -, rfl⟩ | ⟨_, c, -, rfl⟩ | ⟨-, rfl⟩
  · exact ⟨c, State.getV_setV_same s 15#4 _⟩
  · exact ⟨c, State.getV_setV_same s 15#4 _⟩
  · exact ⟨false, State.getV_setV_same s 15#4 _⟩

/-- Settles O20: the flag writers by the value of their flag, the others by their destinations. -/
theorem vfWriters : Obligations.VfWriters := by
  intro i s t h
  have hregs := (exec_effect h).regs 15#4
  cases i with
  | addReg _ _ | sub _ _ | shr _ _ | subn _ _ | shl _ _ =>
    cases h
    intro hx
    rw [State.writeFlagged_flag _ _ _ hx]
    exact flagByte_cases _
  | drw x y n =>
    obtain ⟨c, hc⟩ := exec_drw_flag h
    exact (flagByte_cases c).imp hc.trans hc.trans
  | ldImm _ _ | addImm _ _ | ldReg _ _ | orReg _ _ | andReg _ _ | xorReg _ _ | rnd _ _ | ldVxDt _ | ldVxK _ =>
    exact fun hx => hregs (Ne.symm hx)
  | loadRegs x => exact fun hx => hregs fun hle => hx (BitVec.le_antisymm (by bv_omega) hle)
  | _ => exact hregs not_false

/-- Settles O21: the effect of `exec` on the special registers. -/
theorem specialRegisterWriters : Obligations.SpecialRegisterWriters := by
  intro i s t h
  have eff := exec_effect h
  refine ⟨eff.I, ?_, eff.delay.imp_right And.right, eff.sound.imp_right And.right⟩
  exact eff.stack.imp_right (Or.imp (fun hcall => hcall.2.2) And.right)

/-- Settles O22: the effect of `exec` on the grid and on memory. -/
theorem gridAndMemoryWriters : Obligations.GridAndMemoryWriters := by
  intro i s t h
  have eff := exec_effect h
  exact ⟨eff.fb, eff.mem.imp (fun hm a => by rw [hm]) And.right⟩

/-- An instruction of a running machine that leaves the status alone raised nothing, so pc follows R18. -/
theorem exec_pcUpdate {i : Instr} {s t : State} (h : exec i s = .next t) (hst : t.status = s.status)
    (hrun : s.status = .running) : PcUpdate i s t := by
  rcases (exec_effect h).pc with ⟨-, hu⟩ | ⟨⟨e, he⟩, -⟩
  · exact hu
  · rw [hst, hrun] at he
    cases he

/-- Settles O24: `PcUpdate`, with the jump targets as numbers and the popped value read back from pc. -/
theorem pcCategories : Obligations.PcCategories := by
  intro i s t h hst hrun
  have hu := exec_pcUpdate h hst hrun
  cases i with
  | jp nnn | call nnn => exact (congrArg BitVec.toNat hu).trans (zext16_toNat nnn)
  | jpV0 nnn => exact (congrArg BitVec.toNat hu).trans (State.indirectTarget_toNat s nnn)
  | ret =>
    intro hcfg
    obtain ⟨v, hv, hp⟩ := hu
    rw [hp, hcfg, returnTarget, BitVec.add_sub_cancel]
    exact hv
  | _ => exact hu

/-! ### Frames of control transfer -/

/-- What stays when pc alone changes (R69, R74, R112). -/
theorem frame_of_pc (s : State) (p : Word) :
    let t := { s with pc := p }
    SameRegsBut [] s t ∧ SameMemory s t ∧ t.I = s.I ∧ t.stack = s.stack ∧ SameDelay s t ∧ SameSound s t ∧
      t.fb = s.fb ∧ t.status = s.status ∧ SameHost s t ∧ t.events = s.events :=
  ⟨fun _ _ => rfl, fun _ => rfl, rfl, rfl, ⟨rfl, rfl⟩, ⟨rfl, rfl, rfl⟩, rfl, rfl, ⟨rfl, rfl, rfl, rfl⟩, rfl⟩

/-- What stays when the stack and pc alone change, or an error is recorded (R72, R73, R116). -/
theorem frame_of_stackTransfer {s t : State}
    (h : (∃ l p, t = { s with stack := l, pc := p }) ∨ ∃ e, t = s.raised e) :
    SameRegsBut [] s t ∧ SameMemory s t ∧ t.I = s.I ∧ SameDelay s t ∧ SameSound s t ∧
      t.fb = s.fb ∧ SameStatusOrError s t ∧ SameHost s t ∧ t.events = s.events := by
  rcases h with ⟨l, p, rfl⟩ | ⟨e, rfl⟩
  · exact ⟨fun _ _ => rfl, fun _ => rfl, rfl, ⟨rfl, rfl⟩, ⟨rfl, rfl, rfl⟩, rfl, .inl rfl, ⟨rfl, rfl, rfl, rfl⟩, rfl⟩
  · exact ⟨fun _ _ => rfl, fun _ => rfl, rfl, ⟨rfl, rfl⟩, ⟨rfl, rfl, rfl⟩, rfl, .inr ⟨e, rfl⟩, ⟨rfl, rfl, rfl, rfl⟩,
      rfl⟩

/-- Settles O56: control transfer and the compare skips write pc, the stack and the status at most. -/
theorem frameControl : Obligations.FrameControl := by
  intro i s t h
  cases i with
  | sys _ | jp _ | jpV0 _ => cases h; exact frame_of_pc s _
  | seImm _ _ | sneImm _ _ | seReg _ _ | sneReg _ _ =>
    cases h
    rw [State.skipIf_record]
    exact frame_of_pc s _
  | call nnn =>
    exact frame_of_stackTransfer
      ((exec_call_cases h).imp (fun ⟨_, ht⟩ => ⟨_, _, ht⟩) (fun ⟨_, ht⟩ => ⟨_, ht⟩))
  | ret =>
    exact frame_of_stackTransfer
      ((exec_ret_cases h).imp (fun ⟨l, _, _, ht⟩ => ⟨l, _, ht⟩) (fun ⟨_, ht⟩ => ⟨_, ht⟩))
  | _ => trivial

/-! ### The call stack (R22, R23) -/

/-- Settles O31: each clause is one of the two outcomes of `push` or `pop`. -/
theorem pushAndPop : Obligations.PushAndPop := by
  intro v s
  refine ⟨push_full, fun hroom => ?_, pop_empty, fun l hl => pop_concat hl⟩
  exact ⟨_, push_ok hroom, rfl, pop_concat rfl⟩

end Sys2Proof.Machine
end

section
/-! PROOFS. The state at creation (R30, R31, R136, R137). -/

namespace Sys2Proof.Machine

/-- Copying the font writes nothing new: memory's content at creation already holds it (R30). -/
theorem Memory.writeAll_font : Memory.writeAll [] fontStart fontTable = [] := by decide

/-- Past the font, memory is 0 at creation (R31). -/
theorem creationByte_pastFont {a : Nat} (h : 0x50 ≤ a) : creationByte a = 0#8 :=
  List.getD_eq_default _ _ h

/-- The launch state of an image that fits (R31, R137). -/
theorem State.launch_fits (cfg : Config) {image : List Byte} (t0 : Nat) (h : progStart + image.length ≤ memSize) :
    State.launch cfg fontTable image t0 = some { State.reset with
      mem := Memory.writeAll [] progStart image
      cfg := cfg
      now := t0
      dtT := t0
      stT := t0 } := by
  rw [State.launch, if_pos ⟨rfl, h⟩, Memory.writeAll_font]

/-- Outside the image, the launched memory reads as it does at creation. -/
theorem Memory.read_image_outside {image : List Byte} {a : Nat} (h : a < progStart ∨ progStart + image.length ≤ a) :
    Memory.read (Memory.writeAll [] progStart image) a = creationByte a :=
  Memory.read_writeAll_outside [] h

/-- Settles O14: the image's bytes read back, every other byte is the one at creation. -/
theorem launchState : Obligations.LaunchState := by
  intro cfg image t0 hlen
  have hfit : progStart + image.length ≤ memSize := by rw [progStart, memSize]; omega
  refine ⟨_, State.launch_fits cfg t0 hfit, fun r => ?_, rfl, rfl, rfl, fun a ha => ?_, fun a hlo hhi => ?_,
    fun j hj => ?_, fun a hlo _ => ?_, rfl, rfl, rfl, rfl, rfl, Grid.lit_blank, rfl⟩
  · exact Vector.getElem_replicate _
  · exact Memory.read_image_outside (.inl (by rw [progStart]; omega))
  · rw [Memory.read_image_outside (.inl (by rw [progStart]; exact hhi)), creationByte_pastFont hlo]
  · exact Memory.read_writeAll_inside hj hfit rfl
  · rw [Memory.read_image_outside (.inr hlo), creationByte_pastFont (by omega)]

end Sys2Proof.Machine
end

section
/-! PROOFS. Memory accesses, the fetch, and its coherence with stores (R36, R37, R41, R49, R65). -/

namespace Sys2Proof.Machine

/-- Settles O6: each clause is one of the two outcomes of `memRead` or `memWrite`. -/
theorem memReadAndMemWrite : Obligations.MemReadAndMemWrite := by
  intro a v s hwf
  refine ⟨fun hout => ⟨memRead_outside hout, memWrite_outside hout⟩, fun hin => ⟨memRead_ok hin, ?_⟩⟩
  exact ⟨_, memWrite_ok hin, rfl, Memory.read_write_same a v hwf, fun _ hb => Memory.read_write_ne s.mem v hb⟩

/-! ### The fetch (R41) -/

/-- Two bytes side by side, as a number (R38). -/
theorem toNat_byte_append (hi lo : Byte) : (hi ++ lo : Word).toNat = 256 * hi.toNat + lo.toNat := by
  rw [BitVec.toNat_append, ← Nat.shiftLeft_add_eq_or_of_lt lo.isLt, Nat.shiftLeft_eq]
  omega

theorem fetch_outside {s : State} (h : memSize ≤ s.pc.toNat + 1) : fetch s = .error (.outOfMemory s.pc.toNat) :=
  if_pos h

/-- A fetch in bounds under the default FETCH_ORDER. -/
theorem fetch_bigEndian {s : State} (hcfg : s.cfg.fetchOrder = .bigEndian) (h : s.pc.toNat + 1 < memSize) :
    fetch s = .ok (Memory.read s.mem s.pc.toNat ++ Memory.read s.mem (s.pc.toNat + 1)) := by
  rw [fetch, if_neg (Nat.not_le.mpr h), hcfg, wordOfBytes]

/-- Settles O7: the fetch out of bounds, and the two bytes joined as a number. -/
theorem fetchJoinsTwoBytes : Obligations.FetchJoinsTwoBytes := by
  intro s
  refine ⟨fun hout => fetch_outside (Nat.succ_le_succ hout), fun hin hcfg => ?_⟩
  exact ⟨_, fetch_bigEndian hcfg (Nat.succ_lt_succ hin), toNat_byte_append _ _⟩

/-! ### Fetch coherence (R49) -/

theorem State.regsUpTo_length (s : State) (x : Nibble) : (s.regsUpTo x).length = x.toNat + 1 := by
  simp [State.regsUpTo]

/-- A block store whose last byte exists: the next state, whole (R107, R108). -/
theorem exec_storeRegs_inBounds {x : Nibble} {s : State} (h : s.I.toNat + x.toNat < memSize) :
    exec (.storeRegs x) s =
      .next ((State.afterBlockMove { s with mem := Memory.writeAll s.mem s.I.toNat (s.regsUpTo x) } x).adv 2) := by
  have hfit : s.addr 0 + (s.regsUpTo x).length ≤ memSize := by rw [State.regsUpTo_length]; exact h
  rw [exec, execStoreRegs, storeBytes_ok (.inr hfit)]
  rfl

/-- After a block store whose last byte exists, the byte at I + k is V[k] (R108). -/
theorem read_of_exec_storeRegs {x : Nibble} {k : Nat} {s t : State} (hwf : Memory.wf s.mem = true)
    (h : s.I.toNat + x.toNat < memSize) (hk : k ≤ x.toNat) (hx : exec (.storeRegs x) s = .next t) :
    Memory.read t.mem (s.I.toNat + k) = s.getV (BitVec.ofNat 4 k) := by
  rw [exec_storeRegs_inBounds h] at hx
  cases hx
  have hlen := s.regsUpTo_length x
  rw [State.adv_mem, State.afterBlockMove_eq, Memory.read_writeAll_inside (by omega) (by omega) hwf]
  simp [State.regsUpTo]

/-- Settles O8: the two bytes the fetch joins are the two registers stored there. -/
theorem storeSeenByNextFetch : Obligations.StoreSeenByNextFetch := by
  intro x k s t u hwf hcfg hfit hk hx hmem hucfg hpc
  have hin : u.pc.toNat + 1 < memSize := by rw [memSize]; omega
  rw [fetch_bigEndian (hucfg ▸ hcfg) hin, hmem, hpc, Nat.add_assoc,
    read_of_exec_storeRegs hwf hfit hk.le hx, read_of_exec_storeRegs hwf hfit hk hx]

/-! ### The iteration of a fetch out of memory (R64, R65) -/

/-- An iteration that does not quit and has an error from fetch or decode records it and ends. -/
theorem step_of_fetchDecode_error {s : State} {e : Error} (hrun : s.status = .running) (hquit : s.input.quit = false)
    (he : fetchDecode (beforeFetch s) = .error e) : step s = .next ((beforeFetch s).raised e).endIteration := by
  simp [step, iteration, hrun, hquit, fetchExecute, he, raise, endAnswer]

/-- What comes before the fetch keeps pc. -/
theorem beforeFetch_pc (s : State) : (beforeFetch s).pc = s.pc := by rw [beforeFetch_record]

/-- Settles O11: the fetch's error, raised in the state at S_FETCH. -/
theorem fetchOutOfMemoryStep : Obligations.FetchOutOfMemoryStep := by
  intro s hrun hquit hpc
  have hout : memSize ≤ (beforeFetch s).pc.toNat + 1 := by rw [beforeFetch_pc]; exact Nat.succ_le_succ hpc
  rw [step_of_fetchDecode_error hrun hquit (fetchDecode_outside hout), beforeFetch_record]
  rfl

end Sys2Proof.Machine
end

section
/-! PROOFS. The encoder and the decoder agree (R53 to R56, R63). -/

namespace Sys2Proof

open Laws

/-- Every instruction's word hits a pattern of the table that builds it (R56). -/
theorem encodeHits : ∀ i : Instr, EncodeHits.Statement i
  | .sys nnn => EncodeHits.sys nnn
  | .cls => EncodeHits.cls
  | .ret => EncodeHits.ret
  | .jp nnn => EncodeHits.jp nnn
  | .call nnn => EncodeHits.call nnn
  | .seImm x kk => EncodeHits.seImm x kk
  | .sneImm x kk => EncodeHits.sneImm x kk
  | .seReg x y => EncodeHits.seReg x y
  | .ldImm x kk => EncodeHits.ldImm x kk
  | .addImm x kk => EncodeHits.addImm x kk
  | .ldReg x y => EncodeHits.ldReg x y
  | .orReg x y => EncodeHits.orReg x y
  | .andReg x y => EncodeHits.andReg x y
  | .xorReg x y => EncodeHits.xorReg x y
  | .addReg x y => EncodeHits.addReg x y
  | .sub x y => EncodeHits.sub x y
  | .shr x y => EncodeHits.shr x y
  | .subn x y => EncodeHits.subn x y
  | .shl x y => EncodeHits.shl x y
  | .sneReg x y => EncodeHits.sneReg x y
  | .ldI nnn => EncodeHits.ldI nnn
  | .jpV0 nnn => EncodeHits.jpV0 nnn
  | .rnd x kk => EncodeHits.rnd x kk
  | .drw x y n => EncodeHits.drw x y n
  | .skp x => EncodeHits.skp x
  | .sknp x => EncodeHits.sknp x
  | .ldVxDt x => EncodeHits.ldVxDt x
  | .ldVxK x => EncodeHits.ldVxK x
  | .ldDtVx x => EncodeHits.ldDtVx x
  | .ldStVx x => EncodeHits.ldStVx x
  | .addI x => EncodeHits.addI x
  | .ldF x => EncodeHits.ldF x
  | .ldB x => EncodeHits.ldB x
  | .storeRegs x => EncodeHits.storeRegs x
  | .loadRegs x => EncodeHits.loadRegs x

/-! ### The priority order matters for the words of CLS and RET alone (R53, R54) -/

/-- The patterns differ in a bit that both fix. -/
def Pattern.apart (p q : Pattern) : Bool := p.bits &&& q.mask != q.bits &&& p.mask

/-- A word hits at most one of two patterns that are apart. -/
theorem Pattern.apart_not_hits {p q : Pattern} {op : Word} (h : p.apart q = true) (hq : q.hits op = true) :
    p.hits op = false := by
  rw [Pattern.hits, beq_iff_eq] at hq
  rw [Pattern.hits, beq_eq_false_iff_ne]
  intro hp
  rw [Pattern.apart, bne_iff_ne, ← hp, ← hq] at h
  exact h (by ac_rfl)

/-- Among patterns that are pairwise apart, the one that the word hits builds the instruction. -/
theorem decodeWith_of_hits {op : Word} {p : Pattern} {ps : List Pattern}
    (hps : ps.Pairwise fun p q => p.apart q = true) (hp : p ∈ ps) (h : p.hits op = true) :
    decodeWith op ps = .ok (p.build op) := by
  induction ps with
  | nil => cases hp
  | cons q ps ih =>
    obtain ⟨hq, hps⟩ := List.pairwise_cons.1 hps
    rw [decodeWith]
    rcases List.mem_cons.1 hp with rfl | hp
    · rw [if_pos h]
    · rw [Pattern.apart_not_hits (hq p hp) h]
      exact ih hps hp

/-- The patterns that leave at least one nibble free (R52). -/
def patternsWithOperands : List Pattern := patternsAXBC ++ patternsAXYB ++ patternsOneNibble

theorem patterns_eq : patterns = patternsExact ++ patternsWithOperands := rfl

theorem patternsWithOperands_apart : patternsWithOperands.Pairwise fun p q => p.apart q = true := by decide

/-- A word hits a pattern of shape A·B·C·D when it is the pattern's word. -/
theorem hits_exact_iff {op bits : Word} {f : Word → Instr} :
    Pattern.hits ⟨0xFFFF#16, bits, f⟩ op = true ↔ op = bits := by
  have hones : op &&& 0xFFFF#16 = op := BitVec.and_allOnes
  rw [Pattern.hits, hones, beq_iff_eq]

/-- The words with all four nibbles fixed are those of CLS and RET. -/
theorem hits_patternsExact_iff {op : Word} :
    (∃ p ∈ patternsExact, p.hits op = true) ↔ op = 0x00E0#16 ∨ op = 0x00EE#16 := by
  simp [patternsExact, hits_exact_iff]

/-- A word other than CLS's and RET's that hits a pattern decodes to what that pattern builds. -/
theorem decode_of_hits {op : Word} {p : Pattern} (hop : ¬ (op = 0x00E0#16 ∨ op = 0x00EE#16)) (hp : p ∈ patterns)
    (h : p.hits op = true) : decode op = .ok (p.build op) := by
  have hexact : ∀ q ∈ patternsExact, ¬ q.hits op = true := fun q hq hh => hop (hits_patternsExact_iff.1 ⟨q, hq, hh⟩)
  have hmem : p ∈ patternsWithOperands :=
    (List.mem_append.1 (patterns_eq ▸ hp)).resolve_left fun he => hexact p he h
  rw [decode, patterns_eq, decodeWith_append, List.find?_eq_none.2 hexact]
  exact decodeWith_of_hits patternsWithOperands_apart hmem h

/-! ### Decode of encode -/

/-- Among the well-formed instructions only CLS and RET have a word with all four nibbles fixed (R54). -/
theorem eq_cls_or_ret_of_encode {i : Instr} (hi : i.wellFormed = true)
    (h : encode i = 0x00E0#16 ∨ encode i = 0x00EE#16) : i = .cls ∨ i = .ret := by
  have hzero : fieldN1 (encode i) = 0#4 := by
    rcases h with h | h
    · rw [h]; rfl
    · rw [h]; rfl
  cases i with
  | cls => exact .inl rfl
  | ret => exact .inr rfl
  | sys nnn =>
    rcases h with h | h
    · obtain rfl : nnn = 0x0E0#12 := (fieldNNN_encNNN _ _).symm.trans (congrArg fieldNNN h)
      cases hi
    · obtain rfl : nnn = 0x0EE#12 := (fieldNNN_encNNN _ _).symm.trans (congrArg fieldNNN h)
      cases hi
  | _ => simp [encode] at hzero

/-- Settles O1: the pattern that builds the instruction from its word is the one decode takes, except for CLS and RET,
whose patterns come first. -/
theorem decodeOfEncode : Obligations.DecodeOfEncode := by
  intro i hi
  by_cases hx : encode i = 0x00E0#16 ∨ encode i = 0x00EE#16
  · rcases eq_cls_or_ret_of_encode hi hx with rfl | rfl
    · rfl
    · rfl
  · obtain ⟨k, p, hk, hp, hbuild⟩ := encodeHits i
    rw [decode_of_hits hx (List.mem_of_getElem? hk) hp, hbuild]

/-! ### Encode of decode -/

/-- A word from its leading nibble, X and KK. -/
theorem encXKK_fields {a : Nibble} {op : Word} (h : fieldN1 op = a) : encXKK a (fieldX op) (fieldKK op) = op := by
  rw [encXKK_eq_encXYN, encXYN_eq_iff]
  exact ⟨h.symm, rfl, BitVec.extractLsb'_extractLsb'_of_le (by decide),
    BitVec.extractLsb'_extractLsb'_of_le (by decide)⟩

/-- A word from its leading nibble and NNN. -/
theorem encNNN_fields {a : Nibble} {op : Word} (h : fieldN1 op = a) : encNNN a (fieldNNN op) = op := by
  rw [encNNN_eq_encXYN, encXYN_eq_iff]
  exact ⟨h.symm, BitVec.extractLsb'_extractLsb'_of_le (by decide), BitVec.extractLsb'_extractLsb'_of_le (by decide),
    BitVec.extractLsb'_extractLsb'_of_le (by decide)⟩

/-- A word that hits a pattern of shape A·X·B·C is its fixed nibbles and its X. -/
theorem encXKK_of_hits {a : Nibble} {kk : Byte} {bits op : Word} {f : Word → Instr} (hb : bits = encXKK a 0#4 kk)
    (h : Pattern.hits ⟨0xF0FF#16, bits, f⟩ op = true) : encXKK a (fieldX op) kk = op := by
  subst hb
  rw [← encXYN_fields op, hits_AXBC _ _ _ _ _ _ (fieldX_encXKK ..), decide_eq_true_iff, encXKK_eq_encXYN] at h
  rw [encXKK_eq_encXYN, encXYN_eq_iff]
  simpa [eq_comm] using h

/-- A word that hits a pattern of shape A·X·Y·B is its fixed nibbles, its X and its Y. -/
theorem encXYN_of_hits {a n : Nibble} {bits op : Word} {f : Word → Instr} (hb : bits = encXYN a 0#4 0#4 n)
    (h : Pattern.hits ⟨0xF00F#16, bits, f⟩ op = true) : encXYN a (fieldX op) (fieldY op) n = op := by
  subst hb
  rw [← encXYN_fields op, hits_AXYB _ _ _ _ _ _ (fieldX_encXYN ..) (fieldY_encXYN ..), decide_eq_true_iff] at h
  rw [encXYN_eq_iff]
  simpa [eq_comm] using h

/-- A word that hits a pattern that fixes the leading nibble alone has that leading nibble. -/
theorem fieldN1_of_hits {a : Nibble} {bits op : Word} {f : Word → Instr} (hb : bits = encXYN a 0#4 0#4 0#4)
    (h : Pattern.hits ⟨0xF000#16, bits, f⟩ op = true) : fieldN1 op = a := by
  subst hb
  rw [← encXYN_fields op, hits_oneNibble _ _ _ _ _ _ (fieldX_encXYN ..) (fieldY_encXYN ..) (fieldN_encXYN ..),
    decide_eq_true_iff] at h
  simpa using h

/-- The pattern builds from every word that hits it an instruction with that word. -/
def Pattern.EncodesBack (p : Pattern) : Prop := ∀ op : Word, p.hits op = true → encode (p.build op) = op

theorem patternsExact_encodeBack : ∀ p ∈ patternsExact, p.EncodesBack := by
  intro p hp op h
  fin_cases hp <;> exact (hits_exact_iff.1 h).symm

theorem patternsAXBC_encodeBack : ∀ p ∈ patternsAXBC, p.EncodesBack := by
  intro p hp op h
  fin_cases hp <;> exact encXKK_of_hits (by decide) h

theorem patternsAXYB_encodeBack : ∀ p ∈ patternsAXYB, p.EncodesBack := by
  intro p hp op h
  fin_cases hp <;> exact encXYN_of_hits (by decide) h

theorem patternsOneNibble_encodeBack : ∀ p ∈ patternsOneNibble, p.EncodesBack := by
  intro p hp op h
  fin_cases hp
  iterate 5 · exact encXKK_fields (fieldN1_of_hits (by decide) h)
  · exact encXYN_eq_iff.2 ⟨(fieldN1_of_hits (by decide) h).symm, rfl, rfl, rfl⟩
  iterate 5 · exact encNNN_fields (fieldN1_of_hits (by decide) h)

theorem patterns_encodeBack : ∀ p ∈ patterns, p.EncodesBack := by
  simp only [patterns, List.forall_mem_append]
  exact ⟨⟨⟨patternsExact_encodeBack, patternsAXBC_encodeBack⟩, patternsAXYB_encodeBack⟩, patternsOneNibble_encodeBack⟩

/-- An instruction that its own word decodes to is well-formed: the words of SYS 0x0E0 and SYS 0x0EE decode to CLS and
RET (R54). -/
theorem wellFormed_of_decode_encode {i : Instr} (h : decode (encode i) = .ok i) : i.wellFormed = true := by
  cases i with
  | sys nnn =>
    simp only [Instr.wellFormed, Bool.and_eq_true, bne_iff_ne]
    constructor
    · rintro rfl
      cases h
    · rintro rfl
      cases h
  | _ => rfl

/-- Settles O2: the pattern that decode took encodes back. -/
theorem encodeOfDecode : Obligations.EncodeOfDecode := by
  intro op i h
  have henc : encode i = op := by
    rcases decodeWith_cases op patterns with ⟨p, hp, hh, he⟩ | ⟨-, he⟩
    · obtain rfl : p.build op = i := Except.ok.inj (he.symm.trans h)
      exact patterns_encodeBack p hp op hh
    · cases he.symm.trans h
  exact ⟨wellFormed_of_decode_encode (henc ▸ h), henc⟩

/-- Settles O3: every word of these leading nibbles is the word of a well-formed instruction. -/
theorem leadingNibbleSelects : Obligations.LeadingNibbleSelects := by
  refine ⟨⟨rfl, rfl, fun nnn h0 h1 => decodeOfEncode (.sys nnn) ?_⟩, fun nnn => ⟨?_, ?_, ?_, ?_⟩,
    fun x kk => ⟨?_, ?_, ?_, ?_, ?_⟩, fun x y n => decodeOfEncode (.drw x y n) rfl⟩
  · simp [Instr.wellFormed, h0, h1]
  · exact decodeOfEncode (.jp nnn) rfl
  · exact decodeOfEncode (.call nnn) rfl
  · exact decodeOfEncode (.ldI nnn) rfl
  · exact decodeOfEncode (.jpV0 nnn) rfl
  · exact decodeOfEncode (.seImm x kk) rfl
  · exact decodeOfEncode (.sneImm x kk) rfl
  · exact decodeOfEncode (.ldImm x kk) rfl
  · exact decodeOfEncode (.addImm x kk) rfl
  · exact decodeOfEncode (.rnd x kk) rfl

/-- Settles O5: the words are spelled out, so decode computes each. -/
theorem specWordsDecode : Obligations.SpecWordsDecode :=
  ⟨rfl, rfl, rfl, rfl, rfl, rfl, rfl, rfl, rfl, rfl, rfl, rfl⟩

/-! ### The unknown words (R55, R59) -/

/-- Decode refuses a word exactly when it hits no pattern. -/
theorem decode_error_iff {op : Word} :
    decode op = .error (.unknownOpcode op) ↔ ¬ ∃ p ∈ patterns, p.hits op = true := by
  rcases decodeWith_cases op patterns with ⟨p, hp, hh, he⟩ | ⟨hnone, he⟩
  · rw [decode, he]
    exact iff_of_false nofun (not_not_intro ⟨p, hp, hh⟩)
  · refine iff_of_true he fun ⟨p, hp, hh⟩ => ?_
    rw [hnone p hp] at hh
    cases hh

/-- A byte by its two nibbles. -/
theorem nibbles_eq_iff {y n : Nibble} {kk : Byte} :
    (y ++ n : BitVec (4 + 4)) = kk ↔ y = kk.extractLsb' 4 4 ∧ n = kk.extractLsb' 0 4 := by
  constructor
  · rintro rfl
    exact ⟨BitVec.extractLsb'_append_eq_left.symm, BitVec.extractLsb'_append_eq_right.symm⟩
  · rintro ⟨rfl, rfl⟩
    exact byte_nibbles kk

section
variable {a x y n : Nibble}

theorem exists_hits_AXBC_iff :
    (∃ p ∈ patternsAXBC, p.hits (encXYN a x y n) = true) ↔
      a = 0xE#4 ∧ y ++ n ∈ [0x9E#8, 0xA1#8] ∨
      a = 0xF#4 ∧ y ++ n ∈ [0x07#8, 0x0A#8, 0x15#8, 0x18#8, 0x1E#8, 0x29#8, 0x33#8, 0x55#8, 0x65#8] := by
  simp [patternsAXBC, hits_AXBC, fieldN1_ofNat, fieldX_ofNat, fieldY_ofNat, fieldN_ofNat, nibbles_eq_iff, and_or_left,
    or_assoc]

theorem exists_hits_AXYB_iff :
    (∃ p ∈ patternsAXYB, p.hits (encXYN a x y n) = true) ↔
      a = 0x5#4 ∧ n = 0x0#4 ∨
      a = 0x8#4 ∧ n ∈ [0x0#4, 0x1#4, 0x2#4, 0x3#4, 0x4#4, 0x5#4, 0x6#4, 0x7#4, 0xE#4] ∨
      a = 0x9#4 ∧ n = 0x0#4 := by
  simp [patternsAXYB, hits_AXYB, fieldN1_ofNat, fieldX_ofNat, fieldY_ofNat, fieldN_ofNat, and_or_left, or_assoc]

theorem exists_hits_oneNibble_iff :
    (∃ p ∈ patternsOneNibble, p.hits (encXYN a x y n) = true) ↔
      a ∈ [0x3#4, 0x4#4, 0x6#4, 0x7#4, 0xC#4, 0xD#4, 0x0#4, 0x1#4, 0x2#4, 0xA#4, 0xB#4] := by
  simp [patternsOneNibble, hits_oneNibble, fieldN1_ofNat, fieldX_ofNat, fieldY_ofNat, fieldN_ofNat]

/-- The known words by shape: those of CLS and RET hit SYS's pattern as well. -/
theorem exists_hits_iff :
    (∃ p ∈ patterns, p.hits (encXYN a x y n) = true) ↔
      (∃ p ∈ patternsAXBC, p.hits (encXYN a x y n) = true) ∨ (∃ p ∈ patternsAXYB, p.hits (encXYN a x y n) = true) ∨
      (∃ p ∈ patternsOneNibble, p.hits (encXYN a x y n) = true) := by
  have hexact : (∃ p ∈ patternsExact, p.hits (encXYN a x y n) = true) →
      ∃ p ∈ patternsOneNibble, p.hits (encXYN a x y n) = true := by
    rw [hits_patternsExact_iff, exists_hits_oneNibble_iff, encXYN_eq_iff, encXYN_eq_iff]
    rintro (⟨rfl, -⟩ | ⟨rfl, -⟩)
    · decide
    · decide
  simp only [patterns, List.mem_append, or_and_right, exists_or, or_assoc]
  exact or_iff_right_of_imp fun h => .inr (.inr (hexact h))

end

/-- The rows of R59 are what the table of R56 leaves out: `e` and `f` say whether the low byte is one of the table's for
the leading nibbles E and F. -/
theorem unknown_rows_iff : ∀ (a n : Nibble) (e f : Bool),
    ¬ ((a = 0xE#4 ∧ e ∨ a = 0xF#4 ∧ f) ∨
      (a = 0x5#4 ∧ n = 0x0#4 ∨
        a = 0x8#4 ∧ n ∈ [0x0#4, 0x1#4, 0x2#4, 0x3#4, 0x4#4, 0x5#4, 0x6#4, 0x7#4, 0xE#4] ∨
        a = 0x9#4 ∧ n = 0x0#4) ∨
      a ∈ [0x3#4, 0x4#4, 0x6#4, 0x7#4, 0xC#4, 0xD#4, 0x0#4, 0x1#4, 0x2#4, 0xA#4, 0xB#4]) ↔
    (a = 0x5#4 ∧ n ≠ 0x0#4) ∨ (a = 0x8#4 ∧ n ∈ [0x8#4, 0x9#4, 0xA#4, 0xB#4, 0xC#4, 0xD#4, 0xF#4]) ∨
      (a = 0x9#4 ∧ n ≠ 0x0#4) ∨ (a = 0xE#4 ∧ ¬ e) ∨ (a = 0xF#4 ∧ ¬ f) := by decide

/-- Settles O4: a word is refused when it hits no shape's patterns. -/
theorem unknownWordsAreTheListed : Obligations.UnknownWordsAreTheListed := by
  intro a x y n
  rw [← encXYN, decode_error_iff, exists_hits_iff, exists_hits_AXBC_iff, exists_hits_AXYB_iff,
    exists_hits_oneNibble_iff]
  simpa only [decide_eq_true_iff] using unknown_rows_iff a n (decide _) (decide _)

end Sys2Proof
end

section
/-! PROOFS. One iteration: its stages in order, and what ends it (R60, R64 to R66, R117). -/

namespace Sys2Proof.Machine

/-! ### The stages of a step (R64) -/

/-- An iteration that does not quit and decodes an instruction executes it and ends. -/
theorem step_of_fetchDecode_ok {s : State} {i : Instr} (hrun : s.status = .running) (hquit : s.input.quit = false)
    (hi : fetchDecode (beforeFetch s) = .ok i) : step s = endAnswer (exec i (beforeFetch s)) := by
  simp [step, iteration, hrun, hquit, fetchExecute, hi]

/-- An iteration that quits. -/
theorem step_of_quit {s : State} (hrun : s.status = .running) (hquit : s.input.quit = true) :
    step s = .next s.quitted.endIteration := by
  simp [step, iteration, hrun, hquit]

/-- What comes before the fetch changes nothing that the fetch reads. -/
theorem fetch_beforeFetch (s : State) : fetch (beforeFetch s) = fetch s := by
  rw [beforeFetch_record]
  exact fetch_congr rfl rfl rfl

theorem fetchDecode_ok {s : State} {op : Word} {i : Instr} (hf : fetch s = .ok op) (hi : decode op = .ok i) :
    fetchDecode s = .ok i := by
  simp [fetchDecode, hf, hi]

/-- A word that decodes to no instruction is an unknown opcode (R55). -/
theorem fetchDecode_unknown {s : State} {op : Word} (hf : fetch s = .ok op) (hi : ∀ i, decode op ≠ .ok i) :
    fetchDecode s = .error (.unknownOpcode op) := by
  rcases decodeWith_cases op patterns with ⟨p, -, -, he⟩ | ⟨-, he⟩
  · exact absurd he (hi _)
  · simp [fetchDecode, hf, decode, he, decodeErrorOf]

/-- Settles O9: the stages before `exec`, written out, and the end of the iteration after it. -/
theorem stepRunsDecodedInstruction : Obligations.StepRunsDecodedInstruction := by
  intro s op i hrun hquit hf hi now due u
  have hu : beforeFetch s = u := beforeFetch_record s
  rw [step_of_fetchDecode_ok hrun hquit (fetchDecode_ok ((fetch_beforeFetch s).trans hf) hi), hu]
  cases exec i u <;> rfl

/-- Settles O10: the quit poll is the iteration's one event. -/
theorem quitComesFirst : Obligations.QuitComesFirst := by
  intro s hrun hquit
  refine ⟨_, step_of_quit hrun hquit, ?_, rfl⟩
  exact List.count_append

/-- Settles O12: decode's error is raised in the fetching state, also in a step. -/
theorem unknownOpcodeIsFatal : Obligations.UnknownOpcodeIsFatal := by
  intro s op hf hi
  refine ⟨?_, fun hrun hquit => ⟨_, step_of_fetchDecode_error hrun hquit
    (fetchDecode_unknown ((fetch_beforeFetch s).trans hf) hi), rfl, beforeFetch_pc s⟩⟩
  rw [fetchExecute, fetchDecode_unknown hf hi]
  rfl

/-- Settles O13: by the two terminal statuses. -/
theorem terminalStatusStays : Obligations.TerminalStatusStays := by
  rintro s (h | ⟨e, h⟩)
  · rw [step, iteration, h]
  · rw [step, iteration, h]

/-! ### The record of events (R127; log entry 5) -/

/-- An instruction takes no event back. -/
theorem exec_events_prefix {i : Instr} {s t : State} (h : exec i s = .next t) : s.events <+: t.events := by
  cases i with
  | sys _ | jp _ | jpV0 _ | ldImm _ _ | addImm _ _ | ldReg _ _ | orReg _ _ | andReg _ _ | xorReg _ _ | rnd _ _
  | ldI _ | addI _ | ldF _ | ldVxDt _ | ldDtVx _ | ldStVx _ => cases h; exact List.prefix_rfl
  | seImm _ _ | sneImm _ _ | seReg _ _ | sneReg _ _ =>
    cases h
    rw [State.skipIf_events]
  | addReg _ _ | sub _ _ | shr _ _ | subn _ _ | shl _ _ =>
    cases h
    rw [State.writeFlagged_eq]
  | call _ => rcases exec_call_cases h with ⟨-, rfl⟩ | ⟨-, rfl⟩ <;> exact List.prefix_rfl
  | ret => rcases exec_ret_cases h with ⟨_, _, -, rfl⟩ | ⟨-, rfl⟩ <;> exact List.prefix_rfl
  | cls => rcases exec_cls_cases h with ⟨-, rfl⟩ | ⟨-, rfl⟩ <;> exact List.prefix_append ..
  | drw _ _ _ =>
    rcases exec_drw_cases h with ⟨_, _, -, rfl⟩ | ⟨_, _, -, rfl⟩ | ⟨-, rfl⟩
    · exact List.prefix_append ..
    · exact List.prefix_append ..
    · exact List.prefix_rfl
  | skp _ =>
    rcases exec_skp_cases h with ⟨_, _, rfl⟩ | ⟨-, -, rfl⟩
    · exact List.prefix_append ..
    · exact List.prefix_rfl
  | sknp _ =>
    rcases exec_sknp_cases h with ⟨_, _, rfl⟩ | ⟨-, -, rfl⟩
    · exact List.prefix_append ..
    · exact List.prefix_rfl
  | ldVxK _ => rcases exec_ldVxK_cases h with ⟨-, rfl⟩ | ⟨_, -, rfl⟩ <;> exact List.prefix_append ..
  | storeRegs x =>
    obtain ⟨u, hu, -, -, rfl | ⟨-, rfl⟩⟩ := exec_storeRegs_cases h
    · rw [State.adv_events, State.afterBlockMove_eq, hu]
    · rw [State.raised_events, hu]
  | loadRegs x =>
    obtain ⟨u, hu, -, rfl | ⟨-, rfl⟩⟩ := exec_loadRegs_cases h
    · rw [State.adv_events, State.afterBlockMove_eq, hu]
    · rw [State.raised_events, hu]
  | ldB x =>
    obtain ⟨u, hu, -, -, rfl | ⟨-, rfl⟩⟩ := exec_ldB_cases h
    · rw [State.adv_events, hu]
    · rw [State.raised_events, hu]

/-- The quit poll is the first new event before the fetch (R66). -/
theorem beforeFetch_events_prefix (s : State) : s.events ++ [.pollQuitRequested] <+: (beforeFetch s).events := by
  rw [beforeFetch_record]
  exact List.prefix_append ..

/-- Of the host's fields only the clock moves before the fetch (R64, R121). -/
theorem beforeFetch_sameHost (s : State) : SameHost { s with now := s.now + s.input.elapsed } (beforeFetch s) := by
  rw [beforeFetch_record]
  exact ⟨rfl, rfl, rfl, rfl⟩

/-- Settles O19: by cases on what a step can do; `exec` keeps the host's fields and the events before it. -/
theorem iterationSamplesAndPolls : Obligations.IterationSamplesAndPolls := by
  intro s t h
  obtain ⟨hcfg, hnow, hin, hit⟩ := beforeFetch_sameHost s
  rcases step_cases h with ⟨hstop, rfl⟩ | ⟨-, -, rfl⟩ | ⟨e, -, -, -, rfl⟩ | ⟨i, u, -, -, -, hx, rfl⟩
  · exact ⟨rfl, fun hrun => absurd hrun hstop⟩
  · exact ⟨rfl, fun _ => ⟨rfl, List.prefix_rfl, rfl, rfl⟩⟩
  · exact ⟨hcfg, fun _ => ⟨hnow, beforeFetch_events_prefix s, congrArg List.tail hin, congrArg (· + 1) hit⟩⟩
  · obtain ⟨hcfg', hnow', hin', hit'⟩ := (exec_effect hx).host
    have hev : (beforeFetch s).events <+: u.events := exec_events_prefix hx
    refine ⟨hcfg'.trans hcfg, fun _ => ⟨hnow'.trans hnow, (beforeFetch_events_prefix s).trans hev, ?_, ?_⟩⟩
    · exact congrArg List.tail (hin'.trans hin)
    · exact congrArg (· + 1) (hit'.trans hit)

end Sys2Proof.Machine
end

section
/-! PROOFS. Control transfer: jumps, and the subroutine linkage of CALL and RET (R70 to R73). -/

namespace Sys2Proof.Machine

/-! ### What CALL pushes and RET adds (R72, R73, D5) -/

theorem State.callValue_eq (s : State) :
    s.callValue = if s.cfg.callPushValue = .pcOfCall then s.pc else s.pc + 2#16 := by
  unfold State.callValue
  cases s.cfg.callPushValue <;> rfl

theorem returnTarget_eq (c : CallPushValue) (v : Word) :
    returnTarget c v = if c = .pcOfCall then v + 2#16 else v := by cases c <;> rfl

/-- The two halves of CALL_PUSH_VALUE cancel: RET goes to the word after the CALL under either setting. -/
theorem returnTarget_callValue (s : State) : returnTarget s.cfg.callPushValue s.callValue = s.pc + 2#16 := by
  unfold State.callValue
  cases s.cfg.callPushValue <;> rfl

/-! ### Both outcomes of CALL and of RET (R22, R23) -/

theorem exec_call_ok (nnn : Addr) {s : State} (h : s.sp < stackDepth) :
    exec (.call nnn) s = .next { s with stack := s.stack ++ [s.callValue], pc := zext16 nnn } := by
  simp only [exec, execCall, push_ok h, State.setPc]

theorem exec_call_full (nnn : Addr) {s : State} (h : stackDepth ≤ s.sp) :
    exec (.call nnn) s = .next (s.raised (.stackOverflow s.callValue)) := by
  simp only [exec, execCall, push_full h, raise]

theorem exec_ret_concat {s : State} {l : List Word} {v : Word} (h : s.stack = l ++ [v]) :
    exec .ret s = .next { s with stack := l, pc := returnTarget s.cfg.callPushValue v } := by
  simp only [exec, execRet, pop_concat h, State.setPc]

theorem exec_ret_empty {s : State} (h : s.stack = []) : exec .ret s = .next (s.raised .stackUnderflow) := by
  simp only [exec, execRet, pop_empty h, raise]

/-! ### Jumps (R70, R71) -/

/-- Settles O29: the word is the encoder's, and the target is NNN zero-extended. -/
theorem jumpSetsPc : Obligations.JumpSetsPc := by
  intro nnn s
  exact ⟨decodeOfEncode (.jp nnn) rfl, s.setPc (zext16 nnn), rfl, rfl, zext16_toNat nnn⟩

/-- Settles O30: the target is at most 0xFFF + 0xFF, so the 16-bit sum never wraps. -/
theorem indirectJumpAddsV0 : Obligations.IndirectJumpAddsV0 := by
  intro nnn s
  exact ⟨decodeOfEncode (.jpV0 nnn) rfl, s.setPc (s.indirectTarget nnn), rfl, rfl, s.indirectTarget_toNat nnn⟩

/-! ### Subroutines (R72, R73) -/

/-- Settles O32: the two outcomes of CALL. -/
theorem callPushesAndJumps : Obligations.CallPushesAndJumps := by
  intro nnn s
  rw [← State.callValue_eq, BitVec.ofNat_toNat]
  exact ⟨decodeOfEncode (.call nnn) rfl, exec_call_ok nnn, exec_call_full nnn⟩

/-- Settles O33: the two outcomes of RET. -/
theorem retPopsAndResumes : Obligations.RetPopsAndResumes := by
  intro s l v
  rw [← returnTarget_eq]
  exact ⟨decodeOfEncode .ret rfl, exec_ret_concat, exec_ret_empty⟩

/-- Settles O34: RET pops the value CALL pushed and turns it into the address after the CALL. -/
theorem returnAfterCall : Obligations.ReturnAfterCall := by
  intro nnn s hroom
  refine ⟨_, exec_call_ok nnn hroom, fun u hstack hcfg => ?_⟩
  have hcfg' : u.cfg = s.cfg := hcfg
  rw [exec_ret_concat hstack, hcfg', returnTarget_callValue]

end Sys2Proof.Machine
end

section
/-! PROOFS. The compare skips (R75 to R78). -/

namespace Sys2Proof.Machine

/-- A skip on the test of a condition, in one record (R18). -/
theorem State.skipIf_of_iff (s : State) {c : Bool} {P : Prop} [Decidable P] (h : c = true ↔ P) :
    s.skipIf c = { s with pc := s.pc + if P then 4#16 else 2#16 } := by
  rw [State.skipIf_record, ite_congr (propext h) (fun _ => rfl) (fun _ => rfl)]

/-- Settles O35: each word is the encoder's, and each meaning is a skip on the test of its condition. -/
theorem compareSkips : Obligations.CompareSkips := by
  intro x y kk s
  refine ⟨⟨decodeOfEncode (.seImm x kk) rfl, ?_⟩, ⟨decodeOfEncode (.sneImm x kk) rfl, ?_⟩,
    ⟨decodeOfEncode (.seReg x y) rfl, ?_⟩, ⟨decodeOfEncode (.sneReg x y) rfl, ?_⟩⟩
  · exact congrArg _ (s.skipIf_of_iff beq_iff_eq)
  · exact congrArg _ (s.skipIf_of_iff bne_iff_ne)
  · exact congrArg _ (s.skipIf_of_iff beq_iff_eq)
  · exact congrArg _ (s.skipIf_of_iff bne_iff_ne)

end Sys2Proof.Machine
end

section
/-! PROOFS. Loads, add-immediate, bitwise logic, and the frame of the register results (R79 to R92, R96, R104). -/

namespace Sys2Proof.Machine

/-! ### A result in V[x] (R79) -/

/-- Every data register after a result is written. -/
theorem State.getV_writeResult (s : State) (x : Nibble) (v : Byte) (r : Nibble) :
    (s.writeResult x v).getV r = if r = x then v else s.getV r := State.getV_setV s x r v

/-- A result whose bits are those of `f`. -/
theorem State.writeResult_bitwise (s : State) (x : Nibble) {v : Byte} {f : Nat → Bool} (hv : ∀ j, v.getLsbD j = f j) :
    let t := s.writeResult x v
    t = { s with regs := t.regs, pc := s.pc + 2#16 } ∧ (∀ r, r ≠ x → t.getV r = s.getV r) ∧
      ∀ j, (t.getV x).getLsbD j = f j := by
  refine ⟨rfl, fun r hr => State.writeResult_ne s v hr, fun j => ?_⟩
  rw [State.getV_writeResult, if_pos rfl, hv]

/-- Settles O36: each word is the encoder's, and each meaning writes one result. -/
theorem loadAndAddImmediate : Obligations.LoadAndAddImmediate := by
  intro x y kk s
  refine ⟨⟨decodeOfEncode (.ldImm x kk) rfl, _, rfl, rfl, State.getV_writeResult s x kk⟩,
    ⟨decodeOfEncode (.addImm x kk) rfl, _, rfl, rfl, fun r => ?_⟩,
    ⟨decodeOfEncode (.ldReg x y) rfl, _, rfl, rfl, State.getV_writeResult s x (s.getV y)⟩⟩
  rw [State.getV_writeResult, apply_ite BitVec.toNat, BitVec.toNat_add]

/-- Settles O37: each word is the encoder's, and each meaning writes a result computed bit by bit. -/
theorem bitwiseLogic : Obligations.BitwiseLogic := by
  intro x y s
  exact ⟨⟨decodeOfEncode (.orReg x y) rfl, _, rfl, s.writeResult_bitwise x fun _ => BitVec.getLsbD_or⟩,
    ⟨decodeOfEncode (.andReg x y) rfl, _, rfl, s.writeResult_bitwise x fun _ => BitVec.getLsbD_and⟩,
    ⟨decodeOfEncode (.xorReg x y) rfl, _, rfl, s.writeResult_bitwise x fun _ => BitVec.getLsbD_xor⟩⟩

/-! ### Frames of the register results -/

/-- What stays when only the registers of `d` and pc change (R79, R92). -/
theorem frame_of_regs {d : List Nibble} {s t : State} (hregs : SameRegsBut d s t)
    (ht : ∃ rg p, t = { s with regs := rg, pc := p }) :
    SameRegsBut d s t ∧ SameMemory s t ∧ t.I = s.I ∧ t.stack = s.stack ∧ SameDelay s t ∧ SameSound s t ∧
      t.fb = s.fb ∧ t.status = s.status ∧ SameHost s t ∧ t.events = s.events := by
  obtain ⟨rg, p, rfl⟩ := ht
  exact ⟨hregs, (frame_of_pc { s with regs := rg } p).2⟩

theorem State.writeResult_sameRegsBut (s : State) (x : Nibble) (v : Byte) : SameRegsBut [x] s (s.writeResult x v) :=
  fun _ hr => State.writeResult_ne s v (List.ne_of_not_mem_cons hr)

theorem State.writeFlagged_sameRegsBut (s : State) (x : Nibble) (res : Byte) (flag : Bool) :
    SameRegsBut [x, 15#4] s (s.writeFlagged x res flag) :=
  fun _ hr => State.writeFlagged_ne s res flag (mt List.mem_pair.2 hr)

/-- Settles O57: each of these instructions ends in one result or one flagged result; the delay read commits DT and its
timestamp before it. -/
theorem frameRegisterResults : Obligations.FrameRegisterResults := by
  intro i s t h
  cases i with
  | ldImm x _ | addImm x _ | ldReg x _ | orReg x _ | andReg x _ | xorReg x _ | rnd x _ =>
    cases h
    exact frame_of_regs (s.writeResult_sameRegsBut x _) ⟨_, _, rfl⟩
  | addReg x _ | sub x _ | shr x _ | subn x _ | shl x _ =>
    cases h
    exact frame_of_regs (s.writeFlagged_sameRegsBut x _ _) ⟨_, _, s.writeFlagged_eq x _ _⟩
  | ldVxDt x =>
    cases h
    obtain ⟨hregs, hmem, hI, hstack, -, hrest⟩ :=
      frame_of_regs ((delayRead s).2.writeResult_sameRegsBut x (delayRead s).1) ⟨_, _, rfl⟩
    exact ⟨hregs, hmem, hI, hstack, hrest⟩
  | _ => trivial

end Sys2Proof.Machine
end

section
/-! PROOFS. Register arithmetic with flag side effects (R86 to R91). -/

namespace Sys2Proof.Machine

/-! ### A result and a flag, as numbers (R86) -/

/-- The two writes under either VF_WRITE_ORDER, for a result that is the number `n` and a flag that is the number
`f`. -/
theorem State.writeFlagged_toNat (s : State) (x : Nibble) {res : Byte} {flag : Bool} {n f : Nat} (hn : res.toNat = n)
    (hf : (flagByte flag).toNat = f) :
    let t := s.writeFlagged x res flag
    t = { s with regs := t.regs, pc := s.pc + 2#16 } ∧
      ∀ r, (t.getV r).toNat =
        if r = x ∧ (x ≠ 15#4 ∨ s.cfg.vfWriteOrder = .flagFirst) then n
        else if r = 15#4 then f
        else (s.getV r).toNat := by
  refine ⟨s.writeFlagged_eq x res flag, fun r => ?_⟩
  rw [State.getV_writeFlagged, apply_ite BitVec.toNat, apply_ite BitVec.toNat, hn, hf]

/-- The flag of a condition as a number (R87 to R89). -/
theorem flagByte_decide_toNat (P : Prop) [Decidable P] : (flagByte (decide P)).toNat = if P then 1 else 0 := by
  simp only [flagByte_toNat, decide_eq_true_eq]

/-- The flag of one bit as a number (R90, R91). -/
theorem flagByte_testBit (n k : Nat) : (flagByte (n.testBit k)).toNat = n / 2 ^ k % 2 := by
  rw [Nat.testBit_eq_decide_div_mod_eq, flagByte_decide_toNat]
  split <;> omega

/-! ### The wrapped difference (R88, R89, R92) -/

theorem byte_sub_toNat (a b : Byte) : (a - b).toNat = (a.toNat + 256 - b.toNat) % 256 := by
  bv_omega

/-! ### The shifts (R90, R91) -/

theorem State.shiftOperand_eq (s : State) (x y : Nibble) :
    s.shiftOperand x y = if s.cfg.shiftSource = .vx then s.getV x else s.getV y := by
  unfold State.shiftOperand
  cases s.cfg.shiftSource <;> rfl

theorem flagByte_lowBit_toNat (a : Byte) : (flagByte (lowBit a)).toNat = a.toNat % 2 :=
  (flagByte_testBit a.toNat 0).trans (by rw [pow_zero, Nat.div_one])

/-- The top bit needs no reduction, since a byte is less than 256. -/
theorem flagByte_highBit_toNat (a : Byte) : (flagByte (highBit a)).toNat = a.toNat / 128 :=
  (flagByte_testBit a.toNat 7).trans (by omega)

theorem byte_shiftRight_one_toNat (a : Byte) : (a >>> 1).toNat = a.toNat / 2 := by
  rw [BitVec.toNat_ushiftRight, Nat.shiftRight_one]

theorem byte_shiftLeft_one_toNat (a : Byte) : (a <<< 1).toNat = 2 * a.toNat % 256 := by
  rw [BitVec.toNat_shiftLeft, Nat.shiftLeft_eq, pow_one, mul_comm]

/-! ### The five instructions -/

/-- Settles O40: the word is the encoder's, and the meaning is a flagged sum. -/
theorem addSetsCarry : Obligations.AddSetsCarry := by
  intro x y s a b
  exact ⟨decodeOfEncode (.addReg x y) rfl, _, rfl,
    s.writeFlagged_toNat x (BitVec.toNat_add ..) (flagByte_decide_toNat _)⟩

/-- Settles O41: each word is the encoder's, and each meaning is a flagged difference, SUBN's with the operands
swapped. -/
theorem subtractSetsNotBorrow : Obligations.SubtractSetsNotBorrow := by
  intro x y s a b
  exact ⟨⟨decodeOfEncode (.sub x y) rfl, _, rfl,
      s.writeFlagged_toNat x (byte_sub_toNat ..) (flagByte_decide_toNat _)⟩,
    ⟨decodeOfEncode (.subn x y) rfl, _, rfl,
      s.writeFlagged_toNat x (byte_sub_toNat ..) (flagByte_decide_toNat _)⟩⟩

/-- Settles O42: each word is the encoder's, and each meaning is a flagged shift of the operand SHIFT_SOURCE names. -/
theorem shiftsSetShiftedOutBit : Obligations.ShiftsSetShiftedOutBit := by
  intro x y s
  rw [← State.shiftOperand_eq]
  exact ⟨⟨decodeOfEncode (.shr x y) rfl, _, rfl,
      s.writeFlagged_toNat x (byte_shiftRight_one_toNat _) (flagByte_lowBit_toNat _)⟩,
    ⟨decodeOfEncode (.shl x y) rfl, _, rfl,
      s.writeFlagged_toNat x (byte_shiftLeft_one_toNat _) (flagByte_highBit_toNat _)⟩⟩

end Sys2Proof.Machine
end

section
/-! PROOFS. Addressing, RND and the timer writes (R93 to R96, R105, R106, R111). -/

namespace Sys2Proof.Machine

/-- Settles O38: the word is the encoder's, and the meaning writes the masked draw, computed bit by bit. -/
theorem randomByteMasked : Obligations.RandomByteMasked := by
  intro x kk s
  obtain ⟨hrecord, hothers, hbits⟩ := s.writeResult_bitwise x (v := s.input.rand &&& kk) fun _ => BitVec.getLsbD_and
  refine ⟨decodeOfEncode (.rnd x kk) rfl, _, rfl, hrecord, hothers, hbits, fun hkk => ?_⟩
  rw [State.getV_writeResult, if_pos rfl, hkk, BitVec.and_zero]

/-! ### The new I, as a number (R94, R95, R111) -/

theorem zext16_eq_ofNat (nnn : Addr) : zext16 nnn = BitVec.ofNat 16 nnn.toNat := (BitVec.ofNat_toNat 16 nnn).symm

/-- ADD I wraps modulo 2^16 (R95). -/
theorem add_byteToWord_eq_ofNat (a : Word) (b : Byte) :
    a + byteToWord b = BitVec.ofNat 16 ((a.toNat + b.toNat) % 65536) := by
  apply BitVec.eq_of_toNat_eq
  simp only [byteToWord, BitVec.toNat_add, BitVec.toNat_setWidth, BitVec.toNat_ofNat]
  omega

theorem State.fontDigit_eq (s : State) (x : Nibble) :
    s.fontDigit x = if s.cfg.fontDigitPolicy = .unmasked then (s.getV x).toNat else (s.getV x).toNat % 16 := by
  unfold State.fontDigit
  cases s.cfg.fontDigitPolicy <;> rfl

/-- The font starts at address 0 and a glyph has five bytes (R6). -/
theorem glyphAddr_eq_ofNat (digit : Nat) : glyphAddr digit = BitVec.ofNat 16 (5 * digit) :=
  congrArg (BitVec.ofNat 16) (Nat.zero_add _)

/-- Settles O39: each word is the encoder's, and each meaning writes I, given as a number by the lemmas above. -/
theorem addressRegisterResults : Obligations.AddressRegisterResults := by
  intro nnn x s
  rw [← zext16_eq_ofNat, ← add_byteToWord_eq_ofNat, ← State.fontDigit_eq, ← glyphAddr_eq_ofNat]
  exact ⟨⟨decodeOfEncode (.ldI nnn) rfl, rfl⟩, ⟨decodeOfEncode (.addI x) rfl, rfl⟩,
    ⟨decodeOfEncode (.ldF x) rfl, rfl⟩⟩

/-! ### Frames of the writes to I and to the timers -/

/-- Settles O58: what stays after pc changes, less the timer or the address register written before it. -/
theorem frameAddressAndTimerWrites : Obligations.FrameAddressAndTimerWrites := by
  intro i s t h
  cases i with
  | ldI _ | addI _ | ldF _ =>
    cases h
    obtain ⟨hregs, hmem, -, hrest⟩ := frame_of_pc (s.setI _) (s.pc + 2#16)
    exact ⟨hregs, hmem, hrest⟩
  | ldDtVx x =>
    cases h
    obtain ⟨hregs, hmem, hI, hstack, -, hrest⟩ := frame_of_pc (delayWrite (s.getV x) s) (s.pc + 2#16)
    exact ⟨hregs, hmem, hI, hstack, hrest⟩
  | ldStVx x =>
    cases h
    obtain ⟨hregs, hmem, hI, hstack, hdelay, -, hrest⟩ := frame_of_pc (soundWrite (s.getV x) s) (s.pc + 2#16)
    exact ⟨hregs, hmem, hI, hstack, hdelay, hrest⟩
  | _ => trivial

end Sys2Proof.Machine
end

section
/-! PROOFS. The frame of the display and input instructions (R98 to R103). -/

namespace Sys2Proof.Machine

/-- The instructions that call the display or the input collaborator. -/
def CallsDisplayOrInput : Instr → Prop
  | .cls | .drw _ _ _ | .skp _ | .sknp _ | .ldVxK _ => True
  | _ => False

/-- What the effect of `exec` says of them: of the registers only destinations change, and neither memory, I, the stack,
a timer nor the host's fields. -/
theorem Effect.frame_of_callsDisplayOrInput {i : Instr} {s t : State} (eff : Effect i s t)
    (hi : CallsDisplayOrInput i) {d : List Nibble} (hd : ∀ r, WritesReg i r → r ∈ d) :
    SameRegsBut d s t ∧ SameMemory s t ∧ t.I = s.I ∧ t.stack = s.stack ∧ SameDelay s t ∧ SameSound s t ∧
      SameStatusOrError s t ∧ SameHost s t := by
  have hregs : SameRegsBut d s t := fun r hr => eff.regs r (mt (hd r) hr)
  have hstatus : SameStatusOrError s t := eff.pc.imp And.left And.left
  obtain ⟨hmem, hI, hstack, hdelay, hsound⟩ :
      t.mem = s.mem ∧ t.I = s.I ∧ t.stack = s.stack ∧ SameDelay s t ∧ SameSound s t := by
    cases i with
    | cls | drw _ _ _ | skp _ | sknp _ | ldVxK _ =>
      exact ⟨by simpa using eff.mem, by simpa using eff.I, by simpa using eff.stack, by simpa using eff.delay,
        by simpa using eff.sound⟩
    | _ => exact hi.elim
  exact ⟨hregs, fun a => by rw [hmem], hI, hstack, hdelay, hsound, hstatus, eff.host⟩

/-- LD Vx, K raises nothing (R103). -/
theorem exec_ldVxK_status {x : Nibble} {s t : State} (h : exec (.ldVxK x) s = .next t) : t.status = s.status := by
  rcases exec_ldVxK_cases h with ⟨-, rfl⟩ | ⟨_, -, rfl⟩ <;> rfl

/-- Settles O59: the frame of the effect, and the grid where only the input collaborator is called. -/
theorem frameDisplayAndInput : Obligations.FrameDisplayAndInput := by
  intro i s t h
  have eff := exec_effect h
  cases i with
  | cls => exact eff.frame_of_callsDisplayOrInput trivial fun _ hw => hw.elim
  | drw x y n => exact eff.frame_of_callsDisplayOrInput trivial fun _ hw => List.mem_singleton.mpr hw
  | skp _ | sknp _ =>
    have hfb : t.fb = s.fb := by simpa using eff.fb
    obtain ⟨hregs, hmem, hI, hstack, hdelay, hsound, hrest⟩ :=
      eff.frame_of_callsDisplayOrInput trivial (d := []) fun _ hw => hw.elim
    exact ⟨hregs, hmem, hI, hstack, hdelay, hsound, hfb, hrest⟩
  | ldVxK x =>
    have hfb : t.fb = s.fb := by simpa using eff.fb
    obtain ⟨hregs, hmem, hI, hstack, hdelay, hsound, -, hhost⟩ :=
      eff.frame_of_callsDisplayOrInput trivial (d := [x]) fun _ hw => List.mem_singleton.mpr hw
    exact ⟨hregs, hmem, hI, hstack, hdelay, hsound, hfb, exec_ldVxK_status h, hhost⟩
  | _ => trivial

end Sys2Proof.Machine
end

section
/-! PROOFS. CLS, and DRW as one exclusive-or of the pixels its sprite covers (R97 to R99). -/

namespace Sys2Proof.Machine

/-! ### The display call: what its answer does not decide (R128, R129) -/

@[simp] theorem State.displayCall_regs (s : State) (call : DisplayCall) (ev : Event) :
    (s.displayCall call ev).regs = s.regs := by
  unfold State.displayCall; split <;> rfl

@[simp] theorem State.displayCall_fb (s : State) (call : DisplayCall) (ev : Event) :
    (s.displayCall call ev).fb = s.fb := by
  unfold State.displayCall; split <;> rfl

@[simp] theorem State.displayCall_events (s : State) (call : DisplayCall) (ev : Event) :
    (s.displayCall call ev).events = s.events ++ [ev] := by
  unfold State.displayCall; split <;> rfl

@[simp] theorem State.getV_displayCall (s : State) (call : DisplayCall) (ev : Event) (r : Nibble) :
    (s.displayCall call ev).getV r = s.getV r := by
  unfold State.getV; rw [State.displayCall_regs]

/-! ### CLS (R98) -/

/-- Settles O43: the blanked grid, under either answer of the display. -/
theorem clsClearsGrid : Obligations.ClsClearsGrid := by
  intro s
  obtain ⟨t, ht⟩ : ∃ t, exec .cls s = .next t := ⟨_, rfl⟩
  refine ⟨decodeOfEncode .cls rfl, t, ht, ?_⟩
  rcases exec_cls_cases ht with ⟨hok, rfl⟩ | ⟨herr, rfl⟩
  · exact ⟨Grid.lit_blank, fun _ => rfl, fun herr => absurd (hok.symm.trans herr) (by decide)⟩
  · exact ⟨Grid.lit_blank, fun hok => absurd (hok.symm.trans herr) (by decide), fun _ => rfl⟩

/-! ### The pixels of a sprite (R97) -/

/-- The sprite's bytes, top row first: the `n` bytes of memory from I on. -/
def State.spriteRows (s : State) (n : Nat) : List Byte :=
  (List.range n).map fun k => Memory.read s.mem (s.I.toNat + k)

/-- The pixels of the grid that `DRW Vx, Vy, N` flips in state `s`. -/
def State.drawPixels (s : State) (x y n : Nibble) : List (Nat × Nat) :=
  spritePixels s.cfg.drawEdge ((s.getV x).toNat % 64) ((s.getV y).toNat % 32) 0 (s.spriteRows n.toNat)

theorem landing_eq_some_iff {edge : DrawEdge} {x0 y0 c r col row : Nat} (hc : col < 64) (hr : row < 32) :
    landing edge x0 y0 c r = some (col, row) ↔ spriteLandsOn edge x0 y0 c r col row := by
  cases edge with
  | clip =>
    rw [landing, Option.ite_none_right_eq_some, Option.some.injEq, Prod.mk.injEq, displayW, displayH, spriteLandsOn]
    omega
  | wrap => rw [landing, Option.some.injEq, Prod.mk.injEq, displayW, displayH, spriteLandsOn]

/-- On the grid, the pixels DRW flips are those its sprite covers. -/
theorem State.mem_drawPixels_iff (s : State) (x y n : Nibble) {col row : Nat} (hc : col < 64) (hr : row < 32) :
    (col, row) ∈ s.drawPixels x y n ↔
      spriteCovers s ((s.getV x).toNat % 64) ((s.getV y).toNat % 32) n.toNat col row := by
  simp only [State.drawPixels, mem_spritePixels, landing_eq_some_iff hc hr, Nat.zero_add, State.spriteRows,
    List.length_map, List.length_range, List.getElem_map, List.getElem_range, exists_prop, spriteBit]
  constructor
  · rintro ⟨k, c, hk, hc8, hbit, hland⟩
    exact ⟨c, k, hc8, hk, hbit, hland⟩
  · rintro ⟨c, k, hc8, hk, hbit, hland⟩
    exact ⟨k, c, hk, hc8, hbit, hland⟩

theorem spritePixels_inGrid {edge : DrawEdge} {x0 y0 r : Nat} {rows : List Byte} {q : Nat × Nat}
    (h : q ∈ spritePixels edge x0 y0 r rows) : q.1 < 64 ∧ q.2 < 32 := by
  obtain ⟨_, _, _, _, _, hland⟩ := mem_spritePixels.mp h
  exact landing_inGrid hland

/-- A sprite has at most 15 rows, so no two of its pixels land on one pixel of the grid. -/
theorem State.drawPixels_nodup (s : State) (x y n : Nibble) : (s.drawPixels x y n).Nodup := by
  refine spritePixels_nodup ?_
  have := n.isLt
  rw [State.spriteRows, List.length_map, List.length_range]
  omega

/-! ### What drawing does to the grid and to VF (R99) -/

/-- The state in which DRW presents the frame: the sprite's pixels flipped, the collision in VF. -/
def State.drawn (s : State) (x y n : Nibble) : State :=
  let p := flipAll (s.drawPixels x y n) (s.fb, false)
  { s.setV 15#4 (flagByte p.2) with fb := p.1 }

theorem State.drawn_flag (s : State) (x y n : Nibble) :
    (s.drawn x y n).getV 15#4 = flagByte (flipAll (s.drawPixels x y n) (s.fb, false)).2 :=
  State.getV_setV_same s 15#4 _

theorem State.getV_drawn_ne (s : State) (x y n : Nibble) {r : Nibble} (h : r ≠ 15#4) :
    (s.drawn x y n).getV r = s.getV r := State.getV_setV_ne s _ h

theorem State.lit_drawn_of_mem {s : State} {x y n : Nibble} {col row : Nat} (h : (col, row) ∈ s.drawPixels x y n) :
    Grid.lit (s.drawn x y n).fb col row = !Grid.lit s.fb col row := by
  obtain ⟨hc, hr⟩ := spritePixels_inGrid h
  exact lit_flipAll_mem (s.drawPixels_nodup x y n) h hc hr

theorem State.lit_drawn_of_notMem {s : State} {x y n : Nibble} {col row : Nat} (h : (col, row) ∉ s.drawPixels x y n) :
    Grid.lit (s.drawn x y n).fb col row = Grid.lit s.fb col row := lit_flipAll_notMem h

/-- VF after a draw whose pixels include a lit one. -/
theorem State.drawn_flag_of_lit {s : State} {x y n : Nibble} {col row : Nat} (h : (col, row) ∈ s.drawPixels x y n)
    (hlit : Grid.lit s.fb col row = true) : (s.drawn x y n).getV 15#4 = 1#8 := by
  have hcol : (flipAll (s.drawPixels x y n) (s.fb, false)).2 = true :=
    (flipAll_collides (s.drawPixels_nodup x y n)).mpr (.inr ⟨_, h, hlit⟩)
  rw [State.drawn_flag, hcol]
  rfl

/-- VF after a draw whose pixels are all unlit. -/
theorem State.drawn_flag_of_unlit {s : State} {x y n : Nibble}
    (h : ∀ q ∈ s.drawPixels x y n, Grid.lit s.fb q.1 q.2 = false) : (s.drawn x y n).getV 15#4 = 0#8 := by
  have hcol : (flipAll (s.drawPixels x y n) (s.fb, false)).2 = false := by
    rw [Bool.eq_false_iff, ne_eq, flipAll_collides (s.drawPixels_nodup x y n)]
    rintro (hf | ⟨q, hq, hlit⟩)
    · cases hf
    · rw [h q hq] at hlit
      cases hlit
  rw [State.drawn_flag, hcol]
  rfl

/-! ### Both outcomes of reading the sprite (R99) -/

/-- A DRW whose sprite bytes all exist draws, then presents the frame. -/
theorem exec_drw_inBounds (x y : Nibble) {n : Nibble} {s : State} (h : s.I.toNat + n.toNat ≤ memSize ∨ n = 0#4) :
    exec (.drw x y n) s =
      .next ((s.drawn x y n).displayCall .present (.present (s.drawn x y n).fb)) := by
  have hrows : readBytes (s.setV flagReg 0#8) ((s.setV flagReg 0#8).addr 0) n.toNat = .ok (s.spriteRows n.toNat) :=
    readBytes_ok (h.symm.imp_left (congrArg BitVec.toNat))
  simp only [exec, execDrw, hrows, plotSprite_eq, displayW, displayH]
  simp [State.drawn, State.drawPixels, State.setV, flagReg]

/-- A DRW with a sprite byte out of bounds resets VF and raises (R99, R116). -/
theorem exec_drw_outside (x y : Nibble) {n : Nibble} {s : State} (hn : n ≠ 0#4) (h : memSize < s.I.toNat + n.toNat) :
    exec (.drw x y n) s = .next ((s.setV 15#4 0#8).raised (.outOfMemory (max s.I.toNat memSize))) := by
  have hn' : n.toNat ≠ 0 := fun e => hn (BitVec.eq_of_toNat_eq e)
  have hrows : readBytes (s.setV flagReg 0#8) ((s.setV flagReg 0#8).addr 0) n.toNat =
      .error (.outOfMemory (max s.I.toNat memSize)) := readBytes_outside hn' h
  simp only [exec, execDrw, hrows, raise]
  rfl

/-- Settles O44: the sprite's pixels are flipped once each, and VF says whether one was lit. -/
theorem drawFlipsCoveredPixels : Obligations.DrawFlipsCoveredPixels := by
  intro x y n s hfit hok x0 y0
  refine ⟨decodeOfEncode (.drw x y n) rfl, (s.drawn x y n).displayCall .present (.present (s.drawn x y n).fb),
    exec_drw_inBounds x y hfit, ?_, fun r hr => ?_, fun col row hc hr => ?_, ?_, fun hnone => ?_⟩
  · rw [State.displayCall_ok (s := s.drawn x y n) hok]
    rfl
  · rw [State.getV_displayCall, State.getV_drawn_ne s x y n hr]
  · rw [State.displayCall_fb, ← State.mem_drawPixels_iff s x y n hc hr]
    by_cases hmem : (col, row) ∈ s.drawPixels x y n
    · simp [State.lit_drawn_of_mem hmem, hmem]
    · simp [State.lit_drawn_of_notMem hmem, hmem]
  · rintro ⟨col, row, hc, hr, hcov, hlit⟩
    rw [State.getV_displayCall]
    exact State.drawn_flag_of_lit ((s.mem_drawPixels_iff x y n hc hr).mpr hcov) hlit
  · rw [State.getV_displayCall]
    refine State.drawn_flag_of_unlit fun ⟨col, row⟩ hq => Bool.eq_false_iff.mpr fun hlit => hnone ?_
    obtain ⟨hc, hr⟩ := spritePixels_inGrid hq
    exact ⟨col, row, hc, hr, (s.mem_drawPixels_iff x y n hc hr).mp hq, hlit⟩

/-! ### Drawing twice (R99; log entry 18) -/

/-- A DRW keeps everything its pixels are read from, if neither X nor Y names VF. -/
theorem drawPixels_of_exec_drw {x y n : Nibble} {s t : State} (hx : x ≠ 15#4) (hy : y ≠ 15#4)
    (h : exec (.drw x y n) s = .next t) : t.drawPixels x y n = s.drawPixels x y n := by
  obtain ⟨hregs, hmem, hI, -, -, -, -, hcfg, -⟩ := frameDisplayAndInput (.drw x y n) s t h
  have hrows : t.spriteRows n.toNat = s.spriteRows n.toNat := List.map_congr_left fun k _ => by rw [hI, hmem]
  rw [State.drawPixels, State.drawPixels, hrows, hcfg, hregs x (mt List.mem_singleton.mp hx),
    hregs y (mt List.mem_singleton.mp hy)]

/-- The grid and the flag after a DRW whose sprite bytes all exist, whatever the display answers. -/
theorem exec_drw_result {x y n : Nibble} {s t : State} (hfit : s.I.toNat + n.toNat ≤ memSize)
    (h : exec (.drw x y n) s = .next t) :
    t.fb = (s.drawn x y n).fb ∧ t.getV 15#4 = (s.drawn x y n).getV 15#4 := by
  rw [exec_drw_inBounds x y (.inl hfit)] at h
  cases h
  exact ⟨State.displayCall_fb .., State.getV_displayCall ..⟩

/-- Flipping the same pixels again gives the grid back. -/
theorem State.drawn_twice_fb {s t : State} {x y n : Nibble} (hpix : t.drawPixels x y n = s.drawPixels x y n)
    (hfb : t.fb = (s.drawn x y n).fb) : (t.drawn x y n).fb = s.fb := by
  refine Grid.ext_lit fun col row _ _ => ?_
  by_cases hmem : (col, row) ∈ s.drawPixels x y n
  · rw [State.lit_drawn_of_mem (hpix ▸ hmem), hfb, State.lit_drawn_of_mem hmem, Bool.not_not]
  · rw [State.lit_drawn_of_notMem (hpix ▸ hmem), hfb, State.lit_drawn_of_notMem hmem]

/-- Settles O45: both draws flip the same pixels, and on a blank grid the lit pixels after the first are its own. -/
theorem drawTwiceRestoresGrid : Obligations.DrawTwiceRestoresGrid := by
  intro x y n s t u hx hy hfit _ ht hu
  obtain ⟨-, -, hI, -⟩ := frameDisplayAndInput (.drw x y n) s t ht
  have hpix := drawPixels_of_exec_drw hx hy ht
  obtain ⟨hfb, hflag⟩ := exec_drw_result hfit ht
  obtain ⟨hfb', hflag'⟩ := exec_drw_result (hI ▸ hfit) hu
  rw [hfb', hflag, hflag']
  refine ⟨State.drawn_twice_fb hpix hfb, fun hblank => ⟨State.drawn_flag_of_unlit fun q _ => hblank q.1 q.2, ?_, ?_⟩⟩
  · rintro ⟨col, row, hlit⟩
    have hmem : (col, row) ∈ s.drawPixels x y n := by
      by_contra hmem
      rw [hfb, State.lit_drawn_of_notMem hmem, hblank] at hlit
      cases hlit
    exact State.drawn_flag_of_lit (hpix ▸ hmem) hlit
  · exact fun hunlit => State.drawn_flag_of_unlit fun q _ => hunlit q.1 q.2

/-! ### DRW that raises (R99, R116) -/

/-- Settles O46: the raise before the draw, and the draw whose frame is answered with an error: the grid, the registers
and the event do not depend on the answer. -/
theorem drawErrors : Obligations.DrawErrors := by
  intro x y n s
  refine ⟨fun hn hout => ?_, fun hfit herr => ?_⟩
  · exact ⟨_, exec_drw_outside x y hn hout, rfl, fun r => State.getV_setV s 15#4 r 0#8⟩
  refine ⟨_, _, exec_drw_inBounds x y hfit, ?_, ?_, exec_drw_inBounds x y hfit, ?_, ?_, ?_⟩
  · rw [State.displayCall_error (s := s.drawn x y n) herr, State.raised_status]
  · rw [State.displayCall_error (s := s.drawn x y n) herr]
    rfl
  · simp only [State.displayCall_fb]
    rfl
  · simp only [State.displayCall_regs]
    rfl
  · simp only [State.displayCall_events]
    rfl

end Sys2Proof.Machine
end

section
/-! PROOFS. The key instructions (R100 to R103). -/

namespace Sys2Proof.Machine

/-! ### The key test under each policy (R100, D14) -/

theorem setWidth_eq_ofNat_mod (v : Byte) : v.setWidth 4 = BitVec.ofNat 4 (v.toNat % 16) := by
  apply BitVec.eq_of_toNat_eq
  simp

/-- A value that names a key, or whose low nibble is taken for one, is asked about once. -/
theorem keyDown_asked {v : Byte} {s : State} (h : v.toNat ≤ 15 ∨ s.cfg.keyRangePolicy = .maskLowNibble) :
    keyDown v s =
      .ok (s.input.keysDown.getLsbD (v.toNat % 16), s.emit (.isKeyDown (BitVec.ofNat 4 (v.toNat % 16)))) := by
  rw [← setWidth_eq_ofNat_mod]
  rcases keyDown_cases v s with ⟨hv, hp, -⟩ | ⟨hv, hp, -⟩ | ⟨-, hk⟩
  · simp [hp, Nat.not_le.mpr hv] at h
  · simp [hp, Nat.not_le.mpr hv] at h
  · exact hk

theorem keyDown_notPressed {v : Byte} {s : State} (hv : 15 < v.toNat) (hp : s.cfg.keyRangePolicy = .notPressed) :
    keyDown v s = .ok (false, s) := by simp only [keyDown, if_pos hv, hp]

theorem keyDown_fault {v : Byte} {s : State} (hv : 15 < v.toNat) (hp : s.cfg.keyRangePolicy = .fault) :
    keyDown v s = .error (.keyOutOfRange v) := by simp only [keyDown, if_pos hv, hp]

/-! ### SKP and SKNP on the key test's answer (R101, R102) -/

theorem State.skipIf_not_record (s : State) (c : Bool) :
    s.skipIf (!c) = { s with pc := s.pc + if c then 2#16 else 4#16 } := by cases c <;> rfl

theorem exec_keySkips_of_answer {x : Nibble} {s t : State} {held : Bool} (h : keyDown (s.getV x) s = .ok (held, t)) :
    exec (.skp x) s = .next { t with pc := t.pc + if held then 4#16 else 2#16 } ∧
    exec (.sknp x) s = .next { t with pc := t.pc + if held then 2#16 else 4#16 } := by
  constructor
  · simp only [exec, execSkp, h, State.skipIf_record]
  · simp only [exec, execSknp, h, State.skipIf_not_record]

theorem exec_keySkips_of_error {x : Nibble} {s : State} {e : Error} (h : keyDown (s.getV x) s = .error e) :
    exec (.skp x) s = .next (s.raised e) ∧ exec (.sknp x) s = .next (s.raised e) := by
  simp only [exec, execSkp, execSknp, h, raise, and_self]

/-- Settles O47: each word is the encoder's, and each policy is its answer of the key test. -/
theorem keySkips : Obligations.KeySkips := by
  intro x s
  exact ⟨decodeOfEncode (.skp x) rfl, decodeOfEncode (.sknp x) rfl,
    fun hask => exec_keySkips_of_answer (keyDown_asked hask),
    fun hv hp => exec_keySkips_of_answer (keyDown_notPressed hv hp),
    fun hv hp => exec_keySkips_of_error (keyDown_fault hv hp)⟩

/-! ### LD Vx, K under both answers (R103, D27) -/

theorem exec_ldVxK_none (x : Nibble) {s : State} (h : s.input.firstKey = none) :
    exec (.ldVxK x) s = .next (s.emit .firstPressedKey) := by simp only [exec, execLdVxK, h]

theorem exec_ldVxK_some (x : Nibble) {s : State} {k : Nibble} (h : s.input.firstKey = some k) :
    exec (.ldVxK x) s = .next ((s.emit .firstPressedKey).writeResult x (k.setWidth 8)) := by
  simp only [exec, execLdVxK, h]

/-- Settles O48: the word is the encoder's, and the key, widened to a byte, is the one result. -/
theorem waitForKey : Obligations.WaitForKey := by
  intro x s
  refine ⟨decodeOfEncode (.ldVxK x) rfl, exec_ldVxK_none x, fun k hk => ⟨_, exec_ldVxK_some x hk, rfl, fun r => ?_⟩⟩
  have hwiden : (k.setWidth 8).toNat = k.toNat := BitVec.toNat_setWidth_of_le (by decide)
  rw [State.getV_writeResult, apply_ite BitVec.toNat, hwiden, State.getV_emit]

end Sys2Proof.Machine
end

section
/-! PROOFS. The timer instructions (R104 to R106, R122 to R124). -/

namespace Sys2Proof.Machine

/-! ### What the three instructions do, on the timers' own operations -/

/-- The delay read commits the decayed value, then writes it as the one result (R104, R122). -/
theorem exec_ldVxDt (x : Nibble) (s : State) :
    exec (.ldVxDt x) s =
      .next ({ s with dt := s.decayedDelay, dtT := s.now }.writeResult x s.decayedDelay) := rfl

/-- The delay write, then pc (R105, R123). -/
theorem exec_ldDtVx (x : Nibble) (s : State) : exec (.ldDtVx x) s = .next ((delayWrite (s.getV x) s).adv 2) := rfl

/-- The sound write, then pc (R106, R124). -/
theorem exec_ldStVx (x : Nibble) (s : State) : exec (.ldStVx x) s = .next ((soundWrite (s.getV x) s).adv 2) := rfl

/-- Settles O49: the word is the encoder's; the decayed value is the one result, and DT holds the same byte. -/
theorem delayReadDecays : Obligations.DelayReadDecays := by
  intro x s
  refine ⟨decodeOfEncode (.ldVxDt x) rfl, _, exec_ldVxDt x s, rfl, ?_, fun r => ?_⟩
  · rw [State.getV_writeResult, if_pos rfl]
    rfl
  · rw [State.getV_writeResult, apply_ite BitVec.toNat, State.decayedDelay_toNat]
    rfl

/-- Settles O50: each word is the encoder's, and each meaning is its timer's write. -/
theorem timerWrites : Obligations.TimerWrites := by
  intro x s
  exact ⟨⟨decodeOfEncode (.ldDtVx x) rfl, exec_ldDtVx x s⟩, ⟨decodeOfEncode (.ldStVx x) rfl, exec_ldStVx x s⟩⟩

end Sys2Proof.Machine
end

section
/-! PROOFS. Memory block moves and BCD: both outcomes of each, the restore, and the frame (R107 to R110). -/

namespace Sys2Proof.Machine

/-! ### I after a block move (R107, D13) -/

/-- After a block move I is `iAfterMove`, and nothing else differs. -/
theorem State.afterBlockMove_record (s : State) (x : Nibble) : s.afterBlockMove x = { s with I := iAfterMove s x } := by
  unfold State.afterBlockMove iAfterMove
  cases s.cfg.iAfterBlockMove with
  | unchanged => rfl
  | plusXPlus1 => simp only [State.setI, Nat.add_assoc, BitVec.ofNat_add, BitVec.ofNat_toNat, BitVec.setWidth_eq]
  | plusX => simp only [State.setI, BitVec.ofNat_add, BitVec.ofNat_toNat, BitVec.setWidth_eq]

/-! ### Stores (R108, R110) -/

/-- After the bytes of a list that exist are written, each of them reads as its byte, whether or not all exist. -/
theorem Memory.read_writeAll_take {m : Memory} {a k : Nat} {bs : List Byte} (hk : k < bs.length) (hin : a + k < memSize)
    (hwf : Memory.wf m = true) : Memory.read (Memory.writeAll m a (bs.take (memSize - a))) (a + k) = bs[k] := by
  have hlen : (bs.take (memSize - a)).length = min (memSize - a) bs.length := List.length_take
  rw [Memory.read_writeAll_inside (by omega) (by omega) hwf, List.getElem_take]

/-- Writing at most `n` bytes from `a` on changes no byte outside the `n` bytes there. -/
theorem sameMemoryBut_writeAll {s : State} {a n : Nat} {bs : List Byte} (h : bs.length ≤ n) :
    SameMemoryBut a n s { s with mem := Memory.writeAll s.mem a bs } :=
  fun _ hb => Memory.read_writeAll_outside s.mem (hb.imp_right (Nat.add_le_add_left h a).trans)

theorem State.regsUpTo_getElem (s : State) (x r : Nibble) (h : r.toNat < (s.regsUpTo x).length) :
    (s.regsUpTo x)[r.toNat] = s.getV r := by
  simp [State.regsUpTo]

/-- A block store whose last byte exists, in one record (R107, R108). -/
theorem exec_storeRegs_record {x : Nibble} {s : State} (h : s.I.toNat + x.toNat < memSize) :
    exec (.storeRegs x) s =
      .next { s with
        mem := Memory.writeAll s.mem s.I.toNat (s.regsUpTo x), I := iAfterMove s x, pc := s.pc + 2#16 } := by
  rw [exec_storeRegs_inBounds h, State.afterBlockMove_record]
  rfl

/-- A block store whose last byte does not exist stores those that do and raises (R108, R116). -/
theorem exec_storeRegs_outside {x : Nibble} {s : State} (h : memSize ≤ s.I.toNat + x.toNat) :
    exec (.storeRegs x) s =
      .next { s with
        mem := Memory.writeAll s.mem s.I.toNat ((s.regsUpTo x).take (memSize - s.I.toNat))
        status := .faulted (.outOfMemory (max s.I.toNat memSize)) } := by
  have hout : memSize < s.addr 0 + (s.regsUpTo x).length := by rw [State.regsUpTo_length]; exact Nat.lt_succ_of_le h
  have hne : s.regsUpTo x ≠ [] := List.ne_nil_of_length_eq_add_one (s.regsUpTo_length x)
  rw [exec, execStoreRegs, storeBytes_outside hne hout]
  rfl

/-- A BCD store whose last byte exists (R110). -/
theorem exec_ldB_inBounds {x : Nibble} {s : State} (h : s.I.toNat + 3 ≤ memSize) :
    exec (.ldB x) s =
      .next { s with mem := Memory.writeAll s.mem s.I.toNat (bcdDigits (s.getV x)), pc := s.pc + 2#16 } := by
  have hfit : s.addr 0 + (bcdDigits (s.getV x)).length ≤ memSize := h
  rw [exec, execLdB, storeBytes_ok (.inr hfit)]
  rfl

/-- A BCD store whose last byte does not exist stores the digits before it and raises (R110, R116). -/
theorem exec_ldB_outside {x : Nibble} {s : State} (h : memSize < s.I.toNat + 3) :
    exec (.ldB x) s =
      .next { s with
        mem := Memory.writeAll s.mem s.I.toNat ((bcdDigits (s.getV x)).take (memSize - s.I.toNat))
        status := .faulted (.outOfMemory (max s.I.toNat memSize)) } := by
  have hout : memSize < s.addr 0 + (bcdDigits (s.getV x)).length := h
  have hne : bcdDigits (s.getV x) ≠ [] := List.cons_ne_nil _ _
  rw [exec, execLdB, storeBytes_outside hne hout]
  rfl

/-- Settles O52: both outcomes of the store, with the bytes it has written read back. -/
theorem storeRegisters : Obligations.StoreRegisters := by
  intro x s hwf
  refine ⟨decodeOfEncode (.storeRegs x) rfl, fun hin => ?_, fun hout => ?_⟩
  · refine ⟨_, exec_storeRegs_record hin, rfl, fun r hr => ?_, ?_⟩
    · rw [read_of_exec_storeRegs hwf hin hr (exec_storeRegs_record hin), BitVec.ofNat_toNat, BitVec.setWidth_eq]
    · exact sameMemoryBut_writeAll (s.regsUpTo_length x).le
  · refine ⟨_, exec_storeRegs_outside hout, rfl, fun r hr => ?_, sameMemoryBut_writeAll (s := s) (List.length_take_le _ _)⟩
    have hlen : r.toNat < (s.regsUpTo x).length := by rw [State.regsUpTo_length]; omega
    exact (Memory.read_writeAll_take hlen hr hwf).trans (s.regsUpTo_getElem x r hlen)

@[simp] theorem bcdDigits_length (v : Byte) : (bcdDigits v).length = 3 := rfl

theorem bcdDigits_toNat (v : Byte) :
    (bcdDigits v)[0].toNat = v.toNat / 100 ∧ (bcdDigits v)[1].toNat = v.toNat / 10 % 10 ∧
      (bcdDigits v)[2].toNat = v.toNat % 10 := by
  have hv := v.isLt
  refine ⟨?_, ?_, ?_⟩
  all_goals exact (BitVec.toNat_ofNat ..).trans (by omega)

/-- Settles O55: both outcomes of the store, its bytes read back as the three digits. -/
theorem storeDecimalDigits : Obligations.StoreDecimalDigits := by
  intro x s hwf
  obtain ⟨hundreds, tens, ones⟩ := bcdDigits_toNat (s.getV x)
  have hv := (s.getV x).isLt
  have hread : ∀ k (hk : k < 3), s.I.toNat + k < memSize →
      Memory.read (Memory.writeAll s.mem s.I.toNat ((bcdDigits (s.getV x)).take (memSize - s.I.toNat)))
        (s.I.toNat + k) = (bcdDigits (s.getV x))[k] :=
    fun k hk hlt => Memory.read_writeAll_take hk hlt hwf
  refine ⟨decodeOfEncode (.ldB x) rfl, (s.getV x).toNat / 100, (s.getV x).toNat / 10 % 10, (s.getV x).toNat % 10,
    by omega, by omega, by omega, by omega, fun hin => ?_, fun hout => ?_⟩
  · have hall : (bcdDigits (s.getV x)).take (memSize - s.I.toNat) = bcdDigits (s.getV x) :=
      List.take_of_length_le (Nat.le_sub_of_add_le' hin)
    rw [hall] at hread
    refine ⟨_, exec_ldB_inBounds hin, rfl, sameMemoryBut_writeAll le_rfl, ?_, ?_, ?_⟩
    · exact (congrArg BitVec.toNat (hread 0 (by decide) (by rw [memSize]; omega))).trans hundreds
    · exact (congrArg BitVec.toNat (hread 1 (by decide) (by rw [memSize]; omega))).trans tens
    · exact (congrArg BitVec.toNat (hread 2 (by decide) (by rw [memSize]; omega))).trans ones
  · refine ⟨_, exec_ldB_outside hout, rfl, sameMemoryBut_writeAll (s := s) (List.length_take_le _ _),
      fun hlt => ?_, fun hlt => ?_⟩
    · exact (congrArg BitVec.toNat (hread 0 (by decide) hlt)).trans hundreds
    · exact (congrArg BitVec.toNat (hread 1 (by decide) hlt)).trans tens

/-! ### Loads (R109) -/

/-- Two register files that agree on every register are equal. -/
theorem State.regs_ext {s t : State} (h : ∀ r, t.getV r = s.getV r) : t.regs = s.regs := by
  apply Vector.ext
  intro k hk
  have hr := h (BitVec.ofNat 4 k)
  simpa only [State.getV, BitVec.toNat_ofNat, Nat.mod_eq_of_lt hk] using hr

/-- `s` with its first `n` registers read from the bytes at I, I + 1, ... -/
def State.withLoaded (s : State) (n : Nat) : State :=
  { s with regs := Vector.ofFn fun k => if k.val < n then Memory.read s.mem (s.I.toNat + k.val) else s.regs[k] }

theorem State.getV_withLoaded (s : State) (n : Nat) (r : Nibble) :
    (s.withLoaded n).getV r = if r.toNat < n then Memory.read s.mem (s.I.toNat + r.toNat) else s.getV r :=
  Vector.getElem_ofFn _

/-- A state that differs from `s` in registers alone, the first `n` of them loaded, is `s.withLoaded n`. -/
theorem State.eq_withLoaded {s t : State} {n : Nat} (ht : t = { s with regs := t.regs })
    (hr : ∀ r : Nibble, t.getV r = if r.toNat < n then Memory.read s.mem (s.I.toNat + r.toNat) else s.getV r) :
    t = s.withLoaded n := by
  have hregs : t.regs = (s.withLoaded n).regs := State.regs_ext fun r => (hr r).trans (s.getV_withLoaded n r).symm
  rw [ht, hregs]
  rfl

/-- A block load whose last byte exists (R107, R109). -/
theorem exec_loadRegs_inBounds {x : Nibble} {s : State} (h : s.I.toNat + x.toNat < memSize) :
    exec (.loadRegs x) s = .next { s.withLoaded (x.toNat + 1) with I := iAfterMove s x, pc := s.pc + 2#16 } := by
  have hx := x.isLt
  obtain ⟨t, ht, hrec, hr⟩ := loadBytes_ok (s := s) (a := s.addr 0) (k := 0) (n := x.toNat + 1) (by omega) (.inr h)
  have ht' : t = s.withLoaded (x.toNat + 1) := State.eq_withLoaded hrec fun r => by simpa [State.addr] using hr r
  rw [exec, execLoadRegs, ht, ht', Run.andThen, State.afterBlockMove_record]
  rfl

/-- A block load whose last byte does not exist loads those that do and raises (R109, R116, D6). -/
theorem exec_loadRegs_outside {x : Nibble} {s : State} (h : memSize ≤ s.I.toNat + x.toNat) :
    exec (.loadRegs x) s =
      .next ((s.withLoaded (memSize - s.I.toNat)).raised (.outOfMemory (max s.I.toNat memSize))) := by
  have hx := x.isLt
  obtain ⟨t, ht, hrec, hr⟩ := loadBytes_outside (s := s) (a := s.addr 0) (k := 0) (n := x.toNat + 1) (by omega)
    (Nat.succ_ne_zero _) (Nat.lt_succ_of_le h)
  have ht' : t = s.withLoaded (memSize - s.I.toNat) := by
    refine State.eq_withLoaded hrec fun r => ?_
    rw [hr]
    exact ite_congr (propext (by rw [State.addr]; omega)) (fun _ => by simp [State.addr]) fun _ => rfl
  rw [exec, execLoadRegs, ht, ht']
  rfl

/-- Settles O53: both outcomes of the load, with the number of registers it has loaded. -/
theorem loadRegisters : Obligations.LoadRegisters := by
  intro x s
  refine ⟨decodeOfEncode (.loadRegs x) rfl, fun hin => ?_, fun hout => ?_⟩
  · refine ⟨_, exec_loadRegs_inBounds hin, rfl, fun r => (s.getV_withLoaded _ r).trans ?_⟩
    exact ite_congr (propext Nat.lt_succ_iff) (fun _ => rfl) fun _ => rfl
  · refine ⟨_, exec_loadRegs_outside hout, rfl, fun r => (s.getV_withLoaded _ r).trans ?_⟩
    exact ite_congr (propext (by rw [memSize]; omega)) (fun _ => rfl) fun _ => rfl

/-- Settles O54: a register of the block reads the byte stored from it, any other is kept by both. -/
theorem loadAfterStoreRestores : Obligations.LoadAfterStoreRestores := by
  intro x s t u w hwf hin hst hmem hregs hI hld
  have hkept : ∀ r, u.getV r = s.getV r := fun r =>
    (congrArg (fun v : Vector Byte 16 => v[r.toNat]) hregs).trans ((exec_effect hst).regs r not_false)
  rw [exec_loadRegs_inBounds (by rw [hI]; exact hin)] at hld
  cases hld
  refine State.regs_ext fun r => (u.getV_withLoaded _ r).trans ?_
  split
  case isTrue hr =>
    rw [hmem, hI, read_of_exec_storeRegs hwf hin (Nat.le_of_lt_succ hr) hst, BitVec.ofNat_toNat, BitVec.setWidth_eq]
  case isFalse => exact hkept r

/-! ### The frame -/

/-- What stays when registers, memory, I and pc alone change, and an error may be recorded. -/
theorem frame_of_blockAccess {s t : State}
    (h : t = { s with regs := t.regs, mem := t.mem, I := t.I, pc := t.pc, status := t.status })
    (hst : SameStatusOrError s t) :
    t.stack = s.stack ∧ SameDelay s t ∧ SameSound s t ∧ t.fb = s.fb ∧ SameStatusOrError s t ∧ SameHost s t ∧
      t.events = s.events := by
  refine ⟨?_, ?_, ?_, ?_, hst, ?_, ?_⟩
  all_goals rw [h]
  exacts [⟨rfl, rfl⟩, ⟨rfl, rfl, rfl⟩, ⟨rfl, rfl, rfl, rfl⟩]

/-- Settles O60: each outcome of a block move or a BCD store is a record of what it writes. -/
theorem frameBlockMoves : Obligations.FrameBlockMoves := by
  intro i s t h
  cases i with
  | storeRegs x =>
    obtain ⟨u, hu, hmem, -, ht⟩ := exec_storeRegs_cases h
    obtain ⟨m, rfl⟩ : ∃ m, u = { s with mem := m } := ⟨_, hu⟩
    rcases ht with rfl | ⟨-, rfl⟩
    · rw [State.afterBlockMove_record]
      exact ⟨fun _ _ => rfl, hmem, .inl ⟨rfl, rfl⟩, frame_of_blockAccess rfl (.inl rfl)⟩
    · exact ⟨fun _ _ => rfl, hmem, .inr ⟨rfl, rfl⟩, frame_of_blockAccess rfl (.inr ⟨_, rfl⟩)⟩
  | ldB x =>
    obtain ⟨u, hu, hmem, -, ht⟩ := exec_ldB_cases h
    obtain ⟨m, rfl⟩ : ∃ m, u = { s with mem := m } := ⟨_, hu⟩
    rcases ht with rfl | ⟨-, rfl⟩
    · exact ⟨fun _ _ => rfl, hmem, rfl, frame_of_blockAccess rfl (.inl rfl)⟩
    · exact ⟨fun _ _ => rfl, hmem, rfl, frame_of_blockAccess rfl (.inr ⟨_, rfl⟩)⟩
  | loadRegs x =>
    obtain ⟨u, hu, hregs, ht⟩ := exec_loadRegs_cases h
    obtain ⟨v, rfl⟩ : ∃ v, u = { s with regs := v } := ⟨_, hu⟩
    rcases ht with rfl | ⟨-, rfl⟩
    · rw [State.afterBlockMove_record]
      exact ⟨hregs, fun _ => rfl, .inl ⟨rfl, rfl⟩, frame_of_blockAccess rfl (.inl rfl)⟩
    · exact ⟨hregs, fun _ => rfl, .inr ⟨rfl, rfl⟩, frame_of_blockAccess rfl (.inr ⟨_, rfl⟩)⟩
  | _ => trivial

end Sys2Proof.Machine
end

section
/-! PROOFS. SYS (R112), and what a session starts from (R5, R137). -/

namespace Sys2Proof.Machine

/-- Settles O28: the word is the encoder's, and the meaning is ADV(2). -/
theorem sysIsNoOp : Obligations.SysIsNoOp := by
  intro nnn s
  refine ⟨fun hcls hret => decodeOfEncode (.sys nnn) ?_, rfl⟩
  simp [Instr.wellFormed, hcls, hret]

/-- Settles O15: the loader's own test, with 0x200 taken from both sides; an empty image writes nothing. -/
theorem loaderBound : Obligations.LoaderBound := by
  refine ⟨fun cfg image t0 => ?_, State.launch_fits defaultConfig 0 (by decide)⟩
  have hfit : progStart + image.length ≤ memSize ↔ image.length ≤ 3583 := by
    rw [progStart, memSize]
    omega
  by_cases h : progStart + image.length ≤ memSize
  · simp [State.launch_fits cfg t0 h, hfit.mp h]
  · simp [State.launch, h, mt hfit.mpr h]

end Sys2Proof.Machine
end

section
/-! PROOFS. Errors, and what reaches an instruction: every step answers, which errors it can record, and the host's
inputs (R114 to R116, R127). -/

namespace Sys2Proof.Machine

/-! ### Every step answers (R115, R116) -/

theorem Run.andThen_answers (r : Run) (f : State → State) : ∃ t, r.andThen f = .next t := by
  cases r with
  | ok s => exact ⟨f s, rfl⟩
  | raised e s => exact ⟨s.raised e, rfl⟩

/-- No instruction is refused, and its errors are next states. -/
theorem exec_answers (i : Instr) (s : State) : ∃ t, exec i s = .next t := by
  cases i with
  | call nnn =>
    rcases Nat.lt_or_ge s.sp stackDepth with h | h
    · exact ⟨_, exec_call_ok nnn h⟩
    · exact ⟨_, exec_call_full nnn h⟩
  | ret =>
    rcases pop_cases s with ⟨h, -⟩ | ⟨l, v, h, -⟩
    · exact ⟨_, exec_ret_empty h⟩
    · exact ⟨_, exec_ret_concat h⟩
  | drw x y n =>
    by_cases h : s.I.toNat + n.toNat ≤ memSize ∨ n = 0#4
    · exact ⟨_, exec_drw_inBounds x y h⟩
    · rw [not_or, not_le] at h
      exact ⟨_, exec_drw_outside x y h.2 h.1⟩
  | skp x =>
    cases h : keyDown (s.getV x) s with
    | error e => exact ⟨_, (exec_keySkips_of_error h).1⟩
    | ok a => exact ⟨_, (exec_keySkips_of_answer h).1⟩
  | sknp x =>
    cases h : keyDown (s.getV x) s with
    | error e => exact ⟨_, (exec_keySkips_of_error h).2⟩
    | ok a => exact ⟨_, (exec_keySkips_of_answer h).2⟩
  | ldB _ | storeRegs _ | loadRegs _ => exact Run.andThen_answers _ _
  | _ => exact ⟨_, rfl⟩

/-- Settles O18: by cases on the status, the quit flag, and the fetch. -/
theorem everyStepAnswersNext : Obligations.EveryStepAnswersNext := by
  intro s
  cases hrun : s.status with
  | quit => exact ⟨s, terminalStatusStays s (.inl hrun)⟩
  | faulted e => exact ⟨s, terminalStatusStays s (.inr ⟨e, hrun⟩)⟩
  | running =>
    cases hquit : s.input.quit with
    | true => exact ⟨_, step_of_quit hrun hquit⟩
    | false =>
      cases hf : fetchDecode (beforeFetch s) with
      | error e => exact ⟨_, step_of_fetchDecode_error hrun hquit hf⟩
      | ok i =>
        obtain ⟨t, ht⟩ := exec_answers i (beforeFetch s)
        exact ⟨t.endIteration, by rw [step_of_fetchDecode_ok hrun hquit hf, ht, endAnswer]⟩

/-! ### Which errors (R114) -/

/-- A status kept from a running machine records no error. -/
theorem not_faulted_of_running {s : State} {e : Error} {st : Status} (hrun : s.status = .running) (hkept : st = s.status)
    (he : st = .faulted e) : False :=
  nomatch hrun.symm.trans (hkept.symm.trans he)

/-- Settles O23: an instruction that leaves the status alone records no error; each error is the one of its outcome. -/
theorem errorsOfEachInstruction : Obligations.ErrorsOfEachInstruction := by
  intro i s t e hrun h he
  refine ⟨(exec_effect h).pc.elim (fun ⟨hkept, _⟩ => (not_faulted_of_running hrun hkept he).elim) And.right, ?_⟩
  cases i with
  | sys _ | jp _ | jpV0 _ | ldImm _ _ | addImm _ _ | ldReg _ _ | orReg _ _ | andReg _ _ | xorReg _ _ | rnd _ _
  | ldI _ | addI _ | ldF _ | ldVxDt _ | ldDtVx _ | ldStVx _ => cases h; exact not_faulted_of_running hrun rfl he
  | seImm _ _ | sneImm _ _ | seReg _ _ | sneReg _ _ =>
    cases h
    exact not_faulted_of_running hrun (State.skipIf_status ..) he
  | addReg _ _ | sub _ _ | shr _ _ | subn _ _ | shl _ _ =>
    cases h
    rw [State.writeFlagged_eq] at he
    exact not_faulted_of_running hrun rfl he
  | ldVxK _ => exact not_faulted_of_running hrun (exec_ldVxK_status h) he
  | call _ =>
    rcases exec_call_cases h with ⟨-, rfl⟩ | ⟨hfull, rfl⟩
    · exact (not_faulted_of_running hrun rfl he).elim
    · exact ⟨hfull, (Status.faulted.inj he).symm⟩
  | ret =>
    rcases exec_ret_cases h with ⟨_, _, -, rfl⟩ | ⟨hempty, rfl⟩
    · exact (not_faulted_of_running hrun rfl he).elim
    · exact ⟨congrArg List.length hempty, (Status.faulted.inj he).symm⟩
  | cls =>
    rcases exec_cls_cases h with ⟨-, rfl⟩ | ⟨hfail, rfl⟩
    · exact (not_faulted_of_running hrun rfl he).elim
    · exact ⟨hfail, (Status.faulted.inj he).symm⟩
  | drw _ _ _ =>
    rcases exec_drw_cases h with ⟨_, _, -, rfl⟩ | ⟨_, _, hfail, rfl⟩ | ⟨hout, rfl⟩
    · exact (not_faulted_of_running hrun rfl he).elim
    · exact .inr ⟨hfail, (Status.faulted.inj he).symm⟩
    · exact .inl ⟨hout, (Status.faulted.inj he).symm⟩
  | skp _ =>
    rcases exec_skp_cases h with ⟨_, _, rfl⟩ | ⟨hv, hp, rfl⟩
    · exact (not_faulted_of_running hrun rfl he).elim
    · exact ⟨hv, hp, (Status.faulted.inj he).symm⟩
  | sknp _ =>
    rcases exec_sknp_cases h with ⟨_, _, rfl⟩ | ⟨hv, hp, rfl⟩
    · exact (not_faulted_of_running hrun rfl he).elim
    · exact ⟨hv, hp, (Status.faulted.inj he).symm⟩
  | ldB _ =>
    obtain ⟨u, hu, -, -, ht⟩ := exec_ldB_cases h
    obtain ⟨m, rfl⟩ : ∃ m, u = { s with mem := m } := ⟨_, hu⟩
    rcases ht with rfl | ⟨hout, rfl⟩
    · exact (not_faulted_of_running hrun rfl he).elim
    · exact ⟨hout, (Status.faulted.inj he).symm⟩
  | storeRegs x =>
    obtain ⟨u, hu, -, -, ht⟩ := exec_storeRegs_cases h
    obtain ⟨m, rfl⟩ : ∃ m, u = { s with mem := m } := ⟨_, hu⟩
    rcases ht with rfl | ⟨hout, rfl⟩
    · rw [State.afterBlockMove_record] at he
      exact (not_faulted_of_running hrun rfl he).elim
    · exact ⟨hout, (Status.faulted.inj he).symm⟩
  | loadRegs x =>
    obtain ⟨u, hu, -, ht⟩ := exec_loadRegs_cases h
    obtain ⟨v, rfl⟩ : ∃ v, u = { s with regs := v } := ⟨_, hu⟩
    rcases ht with rfl | ⟨hout, rfl⟩
    · rw [State.afterBlockMove_record] at he
      exact (not_faulted_of_running hrun rfl he).elim
    · exact ⟨hout, (Status.faulted.inj he).symm⟩

/-! ### The host's inputs (R127) -/

/-- `s` with other inputs of the host to come. -/
def State.withInputs (s : State) (inputs : List HostInput) (iter : Nat) : State :=
  { s with inputs := inputs, iter := iter }

section
variable (s : State) (inputs : List HostInput) (iter : Nat)

theorem State.skipIf_withInputs (c : Bool) :
    (s.withInputs inputs iter).skipIf c = (s.skipIf c).withInputs inputs iter := by
  cases c <;> rfl

theorem State.writeFlagged_withInputs (x : Nibble) (res : Byte) (flag : Bool) :
    (s.withInputs inputs iter).writeFlagged x res flag = (s.writeFlagged x res flag).withInputs inputs iter := by
  unfold State.writeFlagged State.withInputs
  cases s.cfg.vfWriteOrder <;> rfl

end

/-- Settles O25: the outcome of each instruction is the same function of the rest of the state. -/
theorem hostInputsReachOnlySix : Obligations.HostInputsReachOnlySix := by
  intro i s inputs iter hrnd hcls hdrw hskp hsknp hkey t h
  cases i with
  | rnd x kk => exact absurd rfl (hrnd x kk)
  | cls => exact absurd rfl hcls
  | drw x y n => exact absurd rfl (hdrw x y n)
  | skp x => exact absurd rfl (hskp x)
  | sknp x => exact absurd rfl (hsknp x)
  | ldVxK x => exact absurd rfl (hkey x)
  | sys _ | jp _ | jpV0 _ | ldImm _ _ | addImm _ _ | ldReg _ _ | orReg _ _ | andReg _ _ | xorReg _ _
  | ldI _ | addI _ | ldF _ | ldVxDt _ | ldDtVx _ | ldStVx _ => cases h; rfl
  | seImm _ _ | sneImm _ _ | seReg _ _ | sneReg _ _ =>
    cases h
    exact congrArg _ (State.skipIf_withInputs s inputs iter _)
  | addReg _ _ | sub _ _ | shr _ _ | subn _ _ | shl _ _ =>
    cases h
    exact congrArg _ (State.writeFlagged_withInputs s inputs iter _ _ _)
  | call nnn =>
    rcases exec_call_cases h with ⟨hroom, rfl⟩ | ⟨hfull, rfl⟩
    · exact exec_call_ok nnn (s := s.withInputs inputs iter) hroom
    · exact exec_call_full nnn (s := s.withInputs inputs iter) hfull
  | ret =>
    rcases exec_ret_cases h with ⟨l, v, hstack, rfl⟩ | ⟨hempty, rfl⟩
    · exact exec_ret_concat (s := s.withInputs inputs iter) hstack
    · exact exec_ret_empty (s := s.withInputs inputs iter) hempty
  | ldB x =>
    rcases Nat.lt_or_ge memSize (s.I.toNat + 3) with hout | hin
    · cases (exec_ldB_outside hout).symm.trans h
      exact exec_ldB_outside (s := s.withInputs inputs iter) hout
    · cases (exec_ldB_inBounds hin).symm.trans h
      exact exec_ldB_inBounds (s := s.withInputs inputs iter) hin
  | storeRegs x =>
    rcases Nat.lt_or_ge (s.I.toNat + x.toNat) memSize with hin | hout
    · cases (exec_storeRegs_record hin).symm.trans h
      exact exec_storeRegs_record (s := s.withInputs inputs iter) hin
    · cases (exec_storeRegs_outside hout).symm.trans h
      exact exec_storeRegs_outside (s := s.withInputs inputs iter) hout
  | loadRegs x =>
    rcases Nat.lt_or_ge (s.I.toNat + x.toNat) memSize with hin | hout
    · cases (exec_loadRegs_inBounds hin).symm.trans h
      exact exec_loadRegs_inBounds (s := s.withInputs inputs iter) hin
    · cases (exec_loadRegs_outside hout).symm.trans h
      exact exec_loadRegs_outside (s := s.withInputs inputs iter) hout

end Sys2Proof.Machine
end

section
/-! PROOFS. Beeps, and delay reads one after another (R67, R121 to R126). -/

namespace Sys2Proof.Machine

/-! ### Instructions emit no beep (R127) -/

/-- Only the instructions that call the display or the input collaborator emit events. -/
theorem exec_events_of_silent {i : Instr} {s t : State} (h : exec i s = .next t) (hi : ¬ CallsDisplayOrInput i) :
    t.events = s.events := by
  cases i with
  | cls | drw _ _ _ | skp _ | sknp _ | ldVxK _ => exact absurd trivial hi
  | sys _ | jp _ | jpV0 _ | seImm _ _ | sneImm _ _ | seReg _ _ | sneReg _ _ =>
    obtain ⟨-, -, -, -, -, -, -, -, -, hev⟩ := frameControl _ s t h
    exact hev
  | call _ | ret =>
    obtain ⟨-, -, -, -, -, -, -, -, hev⟩ := frameControl _ s t h
    exact hev
  | ldImm _ _ | addImm _ _ | ldReg _ _ | orReg _ _ | andReg _ _ | xorReg _ _ | rnd _ _ | addReg _ _ | sub _ _
  | shr _ _ | subn _ _ | shl _ _ =>
    obtain ⟨-, -, -, -, -, -, -, -, -, hev⟩ := frameRegisterResults _ s t h
    exact hev
  | ldVxDt _ =>
    obtain ⟨-, -, -, -, -, -, -, -, hev⟩ := frameRegisterResults _ s t h
    exact hev
  | ldI _ | addI _ | ldF _ | ldDtVx _ | ldStVx _ =>
    obtain ⟨-, -, -, -, -, -, -, -, hev⟩ := frameAddressAndTimerWrites _ s t h
    exact hev
  | storeRegs _ | loadRegs _ | ldB _ =>
    obtain ⟨-, -, -, -, -, -, -, -, -, hev⟩ := frameBlockMoves _ s t h
    exact hev

@[simp] theorem State.beeps_raised (s : State) (e : Error) : (s.raised e).beeps = s.beeps := rfl
@[simp] theorem State.beeps_endIteration (s : State) : s.endIteration.beeps = s.beeps := rfl

theorem State.beeps_append {s t : State} {ev : Event} (h : t.events = s.events ++ [ev]) (hev : ev ≠ .beep) :
    t.beeps = s.beeps := by
  rw [State.beeps, h, List.count_append, List.count_singleton, beq_false_of_ne hev]
  rfl

/-- The key test emits a query at most (R100). -/
theorem keyDown_beeps {v : Byte} {s : State} {a : Bool × State} (h : keyDown v s = .ok a) : a.2.beeps = s.beeps := by
  rcases keyDown_cases v s with ⟨-, -, hk⟩ | ⟨-, -, hk⟩ | ⟨-, hk⟩ <;> cases hk.symm.trans h
  · rfl
  · exact State.beeps_append rfl nofun

/-- No instruction emits a beep: the iteration does, before the fetch (R67). -/
theorem exec_beeps {i : Instr} {s t : State} (h : exec i s = .next t) : t.beeps = s.beeps := by
  cases i with
  | cls => rcases exec_cls_cases h with ⟨-, rfl⟩ | ⟨-, rfl⟩ <;> exact State.beeps_append rfl nofun
  | drw _ _ _ =>
    rcases exec_drw_cases h with ⟨_, _, -, rfl⟩ | ⟨_, _, -, rfl⟩ | ⟨-, rfl⟩
    · exact State.beeps_append rfl nofun
    · exact State.beeps_append rfl nofun
    · rfl
  | skp x =>
    cases hk : keyDown (s.getV x) s with
    | error e => cases (exec_keySkips_of_error hk).1.symm.trans h; rfl
    | ok a => cases (exec_keySkips_of_answer hk).1.symm.trans h; exact keyDown_beeps hk
  | sknp x =>
    cases hk : keyDown (s.getV x) s with
    | error e => cases (exec_keySkips_of_error hk).2.symm.trans h; rfl
    | ok a => cases (exec_keySkips_of_answer hk).2.symm.trans h; exact keyDown_beeps hk
  | ldVxK _ => rcases exec_ldVxK_cases h with ⟨-, rfl⟩ | ⟨_, -, rfl⟩ <;> exact State.beeps_append rfl nofun
  | _ => exact congrArg (List.count .beep) (exec_events_of_silent h not_false)

theorem State.beeps_quitted (s : State) : s.quitted.beeps = s.beeps :=
  State.beeps_append (ev := .pollQuitRequested) rfl nofun

/-! ### The beep of an iteration (R67, R125) -/

/-- Before the fetch a beep is emitted exactly when a pending write's duration has elapsed. -/
theorem beforeFetch_beeps (s : State) :
    (beforeFetch s).beeps =
      s.beeps + if s.stArmed = true ∧ s.st.toNat ≤ s.now + s.input.elapsed - s.stT then 1 else 0 := by
  rw [beforeFetch_record]
  by_cases hdue : s.stArmed = true ∧ s.st.toNat ≤ s.now + s.input.elapsed - s.stT
  · simp [State.beeps, hdue]
  · have hoff : (s.stArmed && decide (s.st.toNat ≤ s.now + s.input.elapsed - s.stT)) = false := by simpa using hdue
    simp [State.beeps, hdue, hoff]

/-- Settles O26: the beep is emitted before the fetch, and nothing after it emits one. -/
theorem beepExactlyWhenDue : Obligations.BeepExactlyWhenDue := by
  intro s t h
  rcases step_cases h with ⟨hstop, rfl⟩ | ⟨-, hquit, rfl⟩ | ⟨e, hrun, hquit, -, rfl⟩ | ⟨i, u, hrun, hquit, -, hx, rfl⟩
  · simp [hstop]
  · simp [hquit, s.beeps_quitted]
  · simpa [hrun, hquit] using beforeFetch_beeps s
  · simpa [hrun, hquit, exec_beeps hx] using beforeFetch_beeps s

/-- No beep is pending at the fetch if none was before, or if one has just been emitted. -/
theorem beforeFetch_disarmed {s : State} (h : s.stArmed = false ∨ (beforeFetch s).beeps ≠ s.beeps) :
    (beforeFetch s).stArmed = false := by
  rcases beforeFetch_beep s with ⟨-, hoff, -⟩ | ⟨hkept, hcount⟩
  · exact hoff
  · exact hkept.trans (h.resolve_right fun hne => hne hcount)

/-- An instruction that leaves a beep pending where none was is LD ST, at this second. -/
theorem exec_arms {i : Instr} {s t : State} (h : exec i s = .next t) (hoff : s.stArmed = false) (hon : t.stArmed = true) :
    ∃ x, i = .ldStVx x ∧ t.st = s.getV x ∧ t.stT = s.now := by
  rcases (exec_effect h).sound with ⟨-, -, hkept⟩ | ⟨-, x, rfl⟩
  · rw [hkept, hoff] at hon
    cases hon
  · cases h
    exact ⟨x, rfl, rfl, rfl⟩

/-- Settles O27: a beep is pending after such a step only if its instruction has armed one. -/
theorem beepNeedsSoundWrite : Obligations.BeepNeedsSoundWrite := by
  intro s t h
  refine ⟨fun hoff => by simpa [hoff] using beepExactlyWhenDue s t h, fun hcase hon => ?_⟩
  rcases step_cases h with ⟨-, rfl⟩ | ⟨-, -, rfl⟩ | ⟨e, -, -, -, rfl⟩ | ⟨i, u, -, -, hf, hx, rfl⟩
  · exact absurd hon (by simpa using hcase)
  · have hoff : s.stArmed = false := hcase.resolve_right fun hne => hne s.beeps_quitted
    cases hoff.symm.trans hon
  · have hoff := beforeFetch_disarmed hcase
    cases hoff.symm.trans hon
  · rw [State.beeps_endIteration, exec_beeps hx] at hcase
    have hoff := beforeFetch_disarmed hcase
    obtain ⟨x, rfl, hst, hstT⟩ := exec_arms hx hoff hon
    obtain ⟨-, hnow, -, -⟩ := (exec_effect hx).host
    refine ⟨x, hf, hst.trans ?_, hstT.trans hnow.symm⟩
    rw [beforeFetch_record]
    rfl

/-! ### Delay reads (R122, R126) -/

/-- Settles O51: the second read decays what the first committed, and the two decays add up. -/
theorem delayReadsCompose : Obligations.DelayReadsCompose := by
  intro x y s t u w hle ht hdt hdtT hnow hw
  cases (exec_ldVxDt x s).symm.trans ht
  cases (exec_ldVxDt y u).symm.trans hw
  have hlater : s.now ≤ u.now := hnow
  have hdt : u.dt = s.decayedDelay := hdt
  have hdtT : u.dtT = s.now := hdtT
  rw [State.getV_writeResult, if_pos rfl, State.getV_writeResult, if_pos rfl]
  have hread : u.decayedDelay.toNat = s.decayedDelay.toNat - (u.now - s.now) := by
    rw [State.decayedDelay_toNat, hdt, hdtT]
  refine ⟨?_, fun hsame => BitVec.eq_of_toNat_eq ?_⟩
  · rw [hread, State.decayedDelay_toNat]
    omega
  · rw [hread, hsame, Nat.sub_self, Nat.sub_zero]

end Sys2Proof.Machine
end
